-- ==== Sys2Proof/Word.lean ====
section
/-! DEFINITION. The two word types of the block (00_scope.md R11, R14): a byte of a buffer has 8 bits,
a register value has 32. Lengths, indices and sizes are exact natural numbers (R13). -/

namespace Sys2Proof

/-- A byte of a buffer (R11). -/
abbrev Byte := BitVec 8

/-- A value of a host-visible register (R23). -/
abbrev Word := BitVec 32

end Sys2Proof
end

