-- ==== Sys2Proof/Syntax.lean ====
section
/-! DEFINITION. What is said to the block: the four commands (30_encoding.md R72), the host transactions
(R77), the events of the total order (20_memory.md R60), and the host's pseudo-instructions (R79). -/

namespace Sys2Proof

/-- The four commands of the opcode map (R72). A command has no operand fields (R74, R75). -/
inductive Instr
  | pack
  | unpack
  | escape
  | unescape
  deriving DecidableEq, Repr, Inhabited

/-- The eight registers by name (R23; the spelling of R78). -/
inductive RegName
  | cmd
  | status
  | inLen
  | outLen
  | errPos
  | inCap
  | rsv6
  | rsv7
  deriving DecidableEq, Repr

/-- The host transaction records of R77, with exactly the field widths given there. -/
inductive Transaction
  | regr (idx : BitVec 3)
  | regw (idx : BitVec 3) (data : Word)
  | inr (addr : BitVec 32)
  | inw (addr : BitVec 32) (data : Byte)
  | outr (addr : BitVec 32)
  | outw (addr : BitVec 32) (data : Byte)
  | reset
  deriving DecidableEq, Repr

/-- The events an execution is a total order of (R60, R100): host transactions (RESET of a powered block
among them), the block's PERFORM, and power-on, the other kind of reset (R231). -/
inductive Event
  | host (t : Transaction)
  | perform
  | powerOn
  deriving DecidableEq, Repr

/-- The pseudo-instructions of R79. The host's bound names are the host's (R78): where an expansion uses
values that reads returned (`copyback`) or repeats (`wait`), they are arguments here (log 14). -/
inductive Pseudo
  | command (i : Instr)
  | load (bytes : List Byte)
  | wait (repeats : Nat)
  | clrdrop
  | fetch (count : Nat)
  | copyback (values : List Byte)
  deriving DecidableEq, Repr

end Sys2Proof
end

