-- ==== Sys2Proof/Config.lean ====
section
/-! DEFINITION. What one implementation fixes and the values the spec leaves free (00_scope.md R9, R14).
A free value is a constant with no body: no proof can see what it is. -/

namespace Sys2Proof

/-- DESIGN CHOICE (log 1). IN_CAP of the instance that `State.reset` describes. R9 leaves IN_CAP open: the
model's IN_CAP is the field `inCap` of State, and every statement is about every value of that field. 8 is the
capacity of the vectors of 95_test_vectors.md. -/
def Config.resetInCap : Nat := 8

/-- The n-th `draw()` of R14: a byte no rule constrains (R112, R117, R232; log 3). -/
opaque Config.draw : Nat → Byte

/-- The value OP_L holds after a RESET or a power-on that happens when `n` draws have been made: unspecified (R38, R230;
log 2). -/
opaque Config.drawOp : Nat → Instr

/-- What byte `a` of IN_BUF holds after power-on number `p` until it is written (R233; log 4). -/
opaque Config.powerOnIn : (p a : Nat) → Byte

/-- What byte `a` of OUT_BUF holds after power-on number `p` until it is written (R233; log 4). -/
opaque Config.powerOnOut : (p a : Nat) → Byte

end Sys2Proof
end

