-- ==== Sys2Proof/WellFormed.lean ====
section
/-! DEFINITION. The checks on what is said to the block. The widths of R77's fields are in the types, so what
is left to check is the range of the parameter (R9) and the conditions R79 puts on pseudo-instructions. -/

namespace Sys2Proof

/-- A command carries no operand and no immediate (R74, R75), so each of the four is well formed. -/
def Instr.wf : Instr → Bool
  | .pack => true
  | .unpack => true
  | .escape => true
  | .unescape => true

/-- The range of the parameter: 1 <= IN_CAP <= 2^30 (R9). -/
def capacityOk (inCap : Nat) : Bool :=
  decide (1 ≤ inCap) && decide (inCap ≤ 2 ^ 30)

/-- The conditions of R79: `load` and `copyback` need k <= IN_CAP and m <= IN_CAP, `fetch` needs indices that
R77's 32-bit address field can spell. -/
def Pseudo.wf (inCap : Nat) : Pseudo → Bool
  | .command i => i.wf
  | .load bytes => decide (bytes.length ≤ inCap)
  | .wait _ => true
  | .clrdrop => true
  | .fetch count => decide (count ≤ 2 ^ 32)
  | .copyback values => decide (values.length ≤ inCap)

end Sys2Proof
end

