-- ==== Sys2Proof/Machine/State.lean ====
section
/-! DEFINITION. The state of one block instance as plain data (10_state.md R20), the result type of the four codec
functions, and the state right after reset (70_reset_and_hazards.md R230, R233). -/

namespace Sys2Proof.Machine

/-- STATUS.STATE (R26). -/
inductive OpState
  | idle
  | busy
  | done
  | error
  deriving DecidableEq, Repr

/-- STATUS.ERR (R27). Codes 5..15 are never produced, so they have no constructor (93_implementation_defined.md U14). -/
inductive ErrCode
  | none
  | truncatedEscape
  | unknownEscapeCode
  | illegalCmd
  | badLength
  deriving DecidableEq, Repr

/-- What a host transaction returns (R77): nothing, a 32-bit word or a byte. -/
inductive Response
  | none
  | word (w : Word)
  | byte (b : Byte)
  deriving DecidableEq, Repr

/-- What a codec function gives (R115): Ok(y), or Err(E, pos, data). -/
inductive CodecResult
  | ok (y : List Byte)
  | err (e : ErrCode) (pos : Nat) (data : Byte)
  deriving DecidableEq, Repr

/-- A buffer's contents: the bytes written since power-on, as (index, byte) pairs with strictly rising indices. An index
that is not listed holds its power-on draw (R233; log 4). -/
abbrev Memory := List Host.Cell

/-- The reasons to stop with a fault: there are none. No access faults (R59), errors are states of the status
register (R207; log 9). Safe: nothing is stopped that the spec lets go on. -/
inductive Fault : Type
  deriving DecidableEq, Repr

/-- The reasons to refuse an instruction. -/
inductive Refusal
  /-- Raised by an arm of `exec` whose instruction has no meaning yet; no arm does. Safe. -/
  | notModelled (mnemonic : String)
  deriving DecidableEq, Repr

structure State where
  /-- the parameter IN_CAP of this instance, constant (R9, R33; the model's own field, log 1) -/
  inCap : Nat
  /-- IN_BUF (R35) -/
  inBuf : Memory
  /-- OUT_BUF (R36) -/
  outBuf : Memory
  /-- STATUS.STATE (R26) -/
  state : OpState
  /-- STATUS.DROP (R29) -/
  drop : Bool
  /-- STATUS.ERR (R27) -/
  err : ErrCode
  /-- STATUS.ERR_DATA (R28) -/
  errData : Byte
  /-- IN_LEN (R30) -/
  inLen : Word
  /-- OUT_LEN (R31) -/
  outLen : Word
  /-- ERR_POS (R32) -/
  errPos : Word
  /-- OP_L, the operation latched at issue (R38) -/
  opL : Instr
  /-- what the last host transaction returned (R77; the model's own field, log 7) -/
  resp : Response
  /-- the coming events, in order (R60; the model's own field, log 5) -/
  events : List Event
  /-- the number of draws made so far (R14; the model's own field, log 3) -/
  draws : Nat
  /-- the number of the last power-on (R233; the model's own field, log 4) -/
  powerOns : Nat
  deriving DecidableEq, Repr

/-- OUT_CAP = 2 * IN_CAP (R9, R36): derived, not a register (R33). -/
def State.outCap (s : State) : Nat := 2 * s.inCap

/-- The block right after power-on and reset (R230, R233). Nothing is written yet, so memory lists nothing; OP_L's
value is named by the model (log 2), and so are those of the model's own fields (logs 1, 3, 4, 5, 7). -/
def State.reset : State where
  inCap := Config.resetInCap
  inBuf := []
  outBuf := []
  state := .idle
  drop := false
  err := .none
  errData := 0#8
  inLen := 0#32
  outLen := 0#32
  errPos := 0#32
  opL := .pack
  resp := .none
  events := []
  draws := 0
  powerOns := 0

end Sys2Proof.Machine
end

