-- ==== Sys2Proof/Machine/Ops.lean ====
section
/-! DEFINITION. The named operations over buffers and registers: reading and writing a byte of IN_BUF or OUT_BUF
(20_memory.md), draws (00_scope.md R14), entering ERROR (60_exceptions.md R207) and clearing the last record
(R208, 40_host_interface.md R103). -/

namespace Sys2Proof.Machine

/-! ## A buffer's contents -/

/-- The canonical form: indices strictly rising. -/
def Memory.wf : Memory → Bool
  | [] => true
  | [_] => true
  | c :: d :: m => decide (c.1 < d.1) && Memory.wf (d :: m)

/-- Every listed index is inside a buffer of `cap` bytes (R50, R52). -/
def Memory.within (cap : Nat) (m : Memory) : Bool :=
  m.all fun c => decide (c.1 < cap)

/-- The byte written last at index `a` since power-on; none where there is none. -/
def Memory.lookup (a : Nat) : Memory → Option Byte
  | [] => none
  | (b, v) :: m => if a = b then some v else Memory.lookup a m

/-- Writes byte `v` at index `a`, keeping the canonical form. -/
def Memory.write (a : Nat) (v : Byte) : Memory → Memory
  | [] => [(a, v)]
  | (b, u) :: m =>
    if a < b then (a, v) :: (b, u) :: m
    else if a = b then (a, v) :: m
    else (b, u) :: Memory.write a v m

/-- Writes the bytes `bs` at the indices from `a` on, in order (the loop of R116). -/
def Memory.writeFrom (a : Nat) : List Byte → Memory → Memory
  | [], m => m
  | b :: bs, m => Memory.writeFrom (a + 1) bs (Memory.write a b m)

/-! ## Bytes of the two buffers -/

/-- IN_BUF[a]: the byte written last, else the stable power-on draw of that byte (R35, R233). -/
def State.inByte (s : State) (a : Nat) : Byte :=
  (Memory.lookup a s.inBuf).getD (Config.powerOnIn s.powerOns a)

/-- OUT_BUF[a]: the byte written last, else the stable power-on draw of that byte (R36, R233). -/
def State.outByte (s : State) (a : Nat) : Byte :=
  (Memory.lookup a s.outBuf).getD (Config.powerOnOut s.powerOns a)

/-- IN_BUF[a] <- v (R110). -/
def State.writeIn (a : Nat) (v : Byte) (s : State) : State :=
  { s with inBuf := Memory.write a v s.inBuf }

/-- OUT_BUF[0 .. len(bs)) <- bs (R116). -/
def State.writeOut (bs : List Byte) (s : State) : State :=
  { s with outBuf := Memory.writeFrom 0 bs s.outBuf }

/-! ## Draws -/

/-- The next `n` draws of R14. -/
def State.nextDraws (n : Nat) (s : State) : List Byte :=
  (List.range n).map fun j => Config.draw (s.draws + j)

/-- `n` draws have been made. -/
def State.advanceDraws (n : Nat) (s : State) : State :=
  { s with draws := s.draws + n }

/-- OUT_BUF[0 .. n) become draws (R117, R232). -/
def State.drawOut (n : Nat) (s : State) : State :=
  (s.writeOut (s.nextDraws n)).advanceDraws n

/-! ## The error record -/

/-- Entering ERROR (R207): STATE <- ERROR, ERR <- the code, ERR_POS and ERR_DATA receive the record of R200. -/
def enterError (e : ErrCode) (pos : Nat) (data : Byte) (s : State) : State :=
  { s with state := .error, err := e, errPos := BitVec.ofNat 32 pos, errData := data }

/-- What an issue clears first (R103, R208): ERR, ERR_DATA, ERR_POS and OUT_LEN. This is how ERROR is left. -/
def clearRecord (s : State) : State :=
  { s with err := .none, errData := 0#8, errPos := 0#32, outLen := 0#32 }

end Sys2Proof.Machine
end

