-- ==== Sys2Proof/Machine/Operands.lean ====
section
/-! DEFINITION. The implicit operands of every command (30_encoding.md R74): the input buffer it reads, the output it
commits, and PERFORM around a codec function (40_host_interface.md R114 to R117). -/

namespace Sys2Proof.Machine

/-- The input x = [IN_BUF[0], ..., IN_BUF[n-1]] with n = IN_LEN (R74, R115). -/
def State.input (s : State) : List Byte :=
  (List.range s.inLen.toNat).map s.inByte

/-- Commit on success (R116): OUT_BUF[0 .. len(y)) <- y, OUT_LEN <- len(y), STATE <- DONE. -/
def commitOk (y : List Byte) (s : State) : State :=
  { s.writeOut y with outLen := BitVec.ofNat 32 y.length, state := .done }

/-- Commit on failure (R117): OUT_BUF[0 .. pos) become draws, OUT_LEN <- 0, and ERROR is entered. -/
def commitErr (e : ErrCode) (pos : Nat) (data : Byte) (s : State) : State :=
  enterError e pos data { s.drawOut pos with outLen := 0#32 }

/-- The commit of a codec's result (R116, R117). -/
def commit (r : CodecResult) (s : State) : State :=
  match r with
  | .ok y => commitOk y s
  | .err e pos data => commitErr e pos data s

/-- PERFORM with the codec function `f` (R114, R115). Where STATE is not BUSY it is not enabled: the block takes no step
and keeps its state (R216; log 6). -/
def performWith (f : List Byte → CodecResult) (s : State) : Host.Outcome State Fault Refusal :=
  if s.state = .busy then .next (commit (f s.input) s) else .next s

end Sys2Proof.Machine
end

