-- ==== Sys2Proof/Machine/BitPacker.lean ====
section
/-! DEFINITION. The unit bit_repacker_7b8b (41_bitpacker.md): the bit cursor, the size functions, `pack` and `unpack` as
the loops of R134 and R137, and the meanings of PACK and UNPACK. -/

namespace Sys2Proof.Machine

/-! ## The bit cursor -/

/-- A bit cursor is a pair (byteIndex, bitIndex) (R130); bitIndex counts from the least significant bit (R11). -/
abbrev Cursor := Nat × Nat

/-- The advance step over symbols whose top bit position is `top` (R131). -/
def adv (c : Cursor) (top : Nat) : Cursor :=
  if c.2 = 0 then (c.1 + 1, top) else (c.1, c.2 - 1)

/-- `k` advances (R132). -/
def advMany (top : Nat) : Nat → Cursor → Cursor
  | 0, c => c
  | k + 1, c => advMany top k (adv c top)

/-- The bit x[c.byteIndex][c.bitIndex] (R14). -/
def bitAt (x : List Byte) (c : Cursor) : Bool :=
  (x.getD c.1 0#8).getLsbD c.2

/-- The byte `v` with bit `k` set to `b`, its other bits unchanged (R14). -/
def setBit (v : Byte) (k : Nat) (b : Bool) : Byte :=
  if b then v ||| BitVec.twoPow 8 k else v &&& ~~~ BitVec.twoPow 8 k

/-- y[c.byteIndex][c.bitIndex] <- b (R14). -/
def putBit (y : List Byte) (c : Cursor) (b : Bool) : List Byte :=
  y.modify c.1 fun v => setBit v c.2 b

/-- The loop of R134 and R137: copy one bit, advance both cursors, `steps` times. -/
def copyBits (x : List Byte) (rtop wtop : Nat) : (steps : Nat) → (rc wc : Cursor) → (y : List Byte) → List Byte
  | 0, _, _, y => y
  | steps + 1, rc, wc, y =>
    copyBits x rtop wtop steps (adv rc rtop) (adv wc wtop) (putBit y wc (bitAt x rc))

/-! ## Sizes -/

/-- packLen(n) = ceil(8n / 7) (R133). -/
def packLen (n : Nat) : Nat := (8 * n + 6) / 7

/-- unpackLen(m) = floor(7m / 8) (R133). -/
def unpackLen (m : Nat) : Nat := 7 * m / 8

/-! ## The two operations -/

/-- `zeros(m)` (R14). -/
def zeros (m : Nat) : List Byte := List.replicate m 0#8

/-- PACK (R134): input cursor from (0, 7), output cursor from (0, 6), 8n steps. -/
def pack (x : List Byte) : List Byte :=
  copyBits x 7 6 (8 * x.length) (0, 7) (0, 6) (zeros (packLen x.length))

/-- UNPACK (R137): input cursor from (0, 6), output cursor from (0, 7), 8 * unpackLen(m) steps. -/
def unpack (x : List Byte) : List Byte :=
  copyBits x 6 7 (8 * unpackLen x.length) (0, 6) (0, 7) (zeros (unpackLen x.length))

/-! ## The meanings -/

/-- PACK performed (R115, R134): it never fails. -/
def execPack (s : State) : Host.Outcome State Fault Refusal :=
  performWith (fun x => .ok (pack x)) s

/-- UNPACK performed (R115, R137): it never fails. -/
def execUnpack (s : State) : Host.Outcome State Fault Refusal :=
  performWith (fun x => .ok (unpack x)) s

end Sys2Proof.Machine
end

