-- ==== Sys2Proof/Machine/Escaper.lean ====
section
/-! DEFINITION. The unit escape_codec (42_escaper.md): the escape table over the three reserved kinds, `escape` and
`unescape` as the scans of R164 and R167, and the meanings of ESCAPE and UNESCAPE. -/

namespace Sys2Proof.Machine

/-! ## The escape table -/

/-- The three reserved kinds, a closed enumeration (R160). -/
inductive Reserved
  | cr
  | lf
  | esc
  deriving DecidableEq, Repr

/-- The escape marker, hardwired (R163). -/
def escMarker : Byte := 0x7F#8

/-- The reserved byte of a kind (R160). -/
def Reserved.byte : Reserved → Byte
  | .cr => 0x0D#8
  | .lf => 0x0A#8
  | .esc => 0x7F#8

/-- The escape code of a kind (R161). -/
def Reserved.code : Reserved → Byte
  | .cr => 0x01#8
  | .lf => 0x02#8
  | .esc => 0x7F#8

/-- The kind of a byte: none exactly when it is not reserved (R160). -/
def reservedOf? (v : Byte) : Option Reserved :=
  if v = 0x0D#8 then some .cr
  else if v = 0x0A#8 then some .lf
  else if v = 0x7F#8 then some .esc
  else none

/-- The kind an escape code stands for: none exactly when the byte is no escape code (R162). -/
def codeOf? (c : Byte) : Option Reserved :=
  if c = 0x01#8 then some .cr
  else if c = 0x02#8 then some .lf
  else if c = 0x7F#8 then some .esc
  else none

/-- isReserved(v) (R160). -/
def isReserved (v : Byte) : Bool := (reservedOf? v).isSome

/-- isCode(c) (R162). -/
def isCode (c : Byte) : Bool := (codeOf? c).isSome

/-! ## ESCAPE -/

/-- The counting pass of R164. -/
def reservedCount (x : List Byte) : Nat := x.countP isReserved

/-- The scan of R164 over the input bytes not yet read, writing into `y` from index `j` on. -/
def escapeScan : (rest : List Byte) → (j : Nat) → (y : List Byte) → List Byte
  | [], _, y => y
  | v :: rest, j, y =>
    match reservedOf? v with
    | some k => escapeScan rest (j + 2) ((y.set j escMarker).set (j + 1) k.code)
    | none => escapeScan rest (j + 1) (y.set j v)

/-- ESCAPE (R164): one exact-size buffer of zeros, then the scan from left to right. -/
def escape (x : List Byte) : List Byte :=
  escapeScan x 0 (List.replicate (x.length + reservedCount x) 0#8)

/-! ## UNESCAPE -/

/-- The scan of R167 at index `i` with the bytes from there on in `rest` and the result so far in `y`. -/
def unescapeScan : (rest : List Byte) → (i : Nat) → (y : List Byte) → CodecResult
  | [], _, y => .ok y
  | v :: rest, i, y =>
    if v = escMarker then
      match rest with
      | [] => .err .truncatedEscape i 0x00#8
      | c :: rest' =>
        match codeOf? c with
        | none => .err .unknownEscapeCode i c
        | some k => unescapeScan rest' (i + 2) (y ++ [k.byte])
    else unescapeScan rest (i + 1) (y ++ [v])

/-- UNESCAPE (R167): partial, with the two failures of R168 and R169. -/
def unescape (x : List Byte) : CodecResult := unescapeScan x 0 []

/-! ## The meanings -/

/-- ESCAPE performed (R115, R164): it never fails. -/
def execEscape (s : State) : Host.Outcome State Fault Refusal :=
  performWith (fun x => .ok (escape x)) s

/-- UNESCAPE performed (R115, R167). -/
def execUnescape (s : State) : Host.Outcome State Fault Refusal :=
  performWith unescape s

end Sys2Proof.Machine
end

