-- ==== Sys2Proof/Decode.lean ====
section
/-! DEFINITION. Decoding and encoding: the command word (30_encoding.md R71 to R73), the register index of a
host transaction (10_state.md R23) and its inverse. A command word is one whole 32-bit word (R56, R76): there is no
byte order to settle and no length to decode. -/

namespace Sys2Proof

/-- Why a command word is illegal (R73). -/
inductive DecodeReject
  /-- some bit of RSVD, bits [31:3], is 1 -/
  | reservedBits
  /-- OP is one of 0b100 .. 0b111 -/
  | unassignedOp
  deriving DecidableEq, Repr

/-- The field OP, bits [2:0] (R71). -/
def opField (w : Word) : BitVec 3 := w.extractLsb' 0 3

/-- The field RSVD, bits [31:3] (R71). -/
def rsvdField (w : Word) : BitVec 29 := w.extractLsb' 3 29

/-- The decoder of R72 and R73, total on the 2^32 words. -/
def decode (w : Word) : Except DecodeReject Instr :=
  if rsvdField w = 0#29 then
    if opField w = 0b000#3 then .ok .pack
    else if opField w = 0b001#3 then .ok .unpack
    else if opField w = 0b010#3 then .ok .escape
    else if opField w = 0b011#3 then .ok .unescape
    else .error .unassignedOp
  else .error .reservedBits

/-- The value of the field OP for each command (R72). -/
def opCode : Instr → BitVec 3
  | .pack => 0b000#3
  | .unpack => 0b001#3
  | .escape => 0b010#3
  | .unescape => 0b011#3

/-- The command word of an instruction: OP in [2:0], RSVD = 0 (R71, R72). -/
def encode (i : Instr) : Word := 0#29 ++ opCode i

/-- The register at a word index (R23). -/
def RegName.ofIdx (idx : BitVec 3) : RegName :=
  if idx = 0#3 then .cmd
  else if idx = 1#3 then .status
  else if idx = 2#3 then .inLen
  else if idx = 3#3 then .outLen
  else if idx = 4#3 then .errPos
  else if idx = 5#3 then .inCap
  else if idx = 6#3 then .rsv6
  else .rsv7

/-- The word index of a register (R23). -/
def RegName.idx : RegName → BitVec 3
  | .cmd => 0#3
  | .status => 1#3
  | .inLen => 2#3
  | .outLen => 3#3
  | .errPos => 4#3
  | .inCap => 5#3
  | .rsv6 => 6#3
  | .rsv7 => 7#3

/-- The byte offset of a register on a bus that uses byte addresses: 4 * index (R23). -/
def RegName.byteOffset (r : RegName) : Nat := 4 * r.idx.toNat

/-- What the decoder reads from an instruction whose bits are `w` (bit 0 the least significant bit of the command
word). Bits at and above `nbits` are 0; a form of more than 32 bits does not exist (R76). -/
def decodeTableWord (nbits w : Nat) : Option Instr :=
  if nbits ≤ 32 then
    match decode (BitVec.ofNat 32 (w % 2 ^ nbits)) with
    | .ok i => some i
    | .error _ => none
  else none

end Sys2Proof
end

