-- ==== Sys2Proof/Machine/Flags.lean ====
section
/-! DEFINITION. The status bits (10_state.md R25 to R29, R41): their codes, the STATUS word, and the sticky DROP flag
with its write-1-to-clear. The block has no other flags. -/

namespace Sys2Proof.Machine

/-- The code of STATUS.STATE (R26). -/
def OpState.code : OpState → BitVec 2
  | .idle => 0#2
  | .busy => 1#2
  | .done => 2#2
  | .error => 3#2

/-- The code of STATUS.ERR (R27). -/
def ErrCode.code : ErrCode → BitVec 4
  | .none => 0#4
  | .truncatedEscape => 1#4
  | .unknownEscapeCode => 2#4
  | .illegalCmd => 3#4
  | .badLength => 4#4

/-- The STATUS register: ERR_DATA in [15:8], ERR in [7:4], DROP in [2], STATE in [1:0], the rest 0 (R25). -/
def State.statusWord (s : State) : Word :=
  0#16 ++ s.errData ++ s.err.code ++ 0#1 ++ BitVec.ofBool s.drop ++ s.state.code

/-- A host write is dropped: DROP <- 1 and nothing else (R29). -/
def setDrop (s : State) : State := { s with drop := true }

/-- The write of STATUS: bit 2 clears DROP, every other bit is ignored (R29, R105). -/
def writeStatus (w : Word) (s : State) : State :=
  if w.getLsbD 2 then { s with drop := false } else s

end Sys2Proof.Machine
end

