-- ==== Sys2Proof/Machine/Reset.lean ====
section
/-! DEFINITION. The two kinds of reset (70_reset_and_hazards.md R230 to R233): RESET of a powered block, and power-on. -/

namespace Sys2Proof.Machine

/-- The registers at the values of R230. OP_L is unspecified: a free value (R38; log 2). -/
def resetRegisters (s : State) : State :=
  { s with
    state := .idle
    drop := false
    err := .none
    errData := 0#8
    inLen := 0#32
    outLen := 0#32
    errPos := 0#32
    opL := Config.drawOp s.draws
    draws := s.draws + 1 }

/-- How many bytes of OUT_BUF the command in flight could have written: min(2 * IN_LEN, OUT_CAP) (R232). -/
def abortedBytes (s : State) : Nat := min (2 * s.inLen.toNat) s.outCap

/-- RESET of a powered block (R230 to R232): a command in flight is aborted and the bytes of OUT_BUF it could have
written become draws; otherwise both buffers stay as they are. -/
def resetBlock (s : State) : State :=
  if s.state = .busy then resetRegisters (s.drawOut (abortedBytes s)) else resetRegisters s

/-- Power-on (R231, R233): the registers reset, and every byte of both buffers holds a new stable draw. -/
def powerOn (s : State) : State :=
  { resetRegisters s with inBuf := [], outBuf := [], powerOns := s.powerOns + 1, resp := .none }

end Sys2Proof.Machine
end

