-- ==== Sys2Proof/Machine/HostInterface.lean ====
section
/-! DEFINITION. The host transactions (40_host_interface.md R102 to R113, 30_encoding.md R77). Each is one atomic step,
allowed at every STATE (R59, R101, R119). What a transaction returns goes to `resp` (log 7). -/

namespace Sys2Proof.Machine

/-! ## Register writes -/

/-- REGW CMD when the block is not busy: the issue (R103) with the checks of R104 in their order. -/
def issue (w : Word) (s : State) : State :=
  match decode w with
  | .error _ => enterError .illegalCmd 0 0#8 (clearRecord s)
  | .ok i =>
    if s.inCap < s.inLen.toNat then enterError .badLength 0 0#8 (clearRecord s)
    else { clearRecord s with opL := i, state := .busy }

/-- REGW CMD: dropped while busy (R102), else the issue (R103). -/
def writeCmd (w : Word) (s : State) : State :=
  if s.state = .busy then setDrop s else issue w s

/-- REGW IN_LEN (R106): dropped while busy, else all 32 bits are stored. -/
def writeInLen (w : Word) (s : State) : State :=
  if s.state = .busy then setDrop s else { s with inLen := w }

/-- REGW by register (R102 to R107): the read-only and reserved registers ignore writes (R107). -/
def writeReg (r : RegName) (w : Word) (s : State) : State :=
  match r with
  | .cmd => writeCmd w s
  | .status => writeStatus w s
  | .inLen => writeInLen w s
  | .outLen => s
  | .errPos => s
  | .inCap => s
  | .rsv6 => s
  | .rsv7 => s

/-! ## Register reads -/

/-- REGR by register (R108). -/
def readReg (r : RegName) (s : State) : Word :=
  match r with
  | .cmd => 0x00000000#32
  | .status => s.statusWord
  | .inLen => s.inLen
  | .outLen => s.outLen
  | .errPos => s.errPos
  | .inCap => BitVec.ofNat 32 s.inCap
  | .rsv6 => 0x00000000#32
  | .rsv7 => 0x00000000#32

/-! ## The transactions -/

/-- REGR idx (R108): returns the word and changes no state. -/
def hostRegr (idx : BitVec 3) (s : State) : State :=
  { s with resp := .word (readReg (RegName.ofIdx idx) s) }

/-- REGW idx, data (R102 to R107). -/
def hostRegw (idx : BitVec 3) (data : Word) (s : State) : State :=
  { writeReg (RegName.ofIdx idx) data s with resp := .none }

/-- INR addr (R111): IN_BUF[addr], or 0x00 out of range, at every STATE. -/
def hostInr (addr : BitVec 32) (s : State) : State :=
  { s with resp := .byte (if addr.toNat < s.inCap then s.inByte addr.toNat else 0x00#8) }

/-- INW addr, v (R110): dropped while busy, stored in range, ignored out of range (R51). -/
def hostInw (addr : BitVec 32) (data : Byte) (s : State) : State :=
  if s.state = .busy then { setDrop s with resp := .none }
  else if addr.toNat < s.inCap then { s.writeIn addr.toNat data with resp := .none }
  else { s with resp := .none }

/-- OUTR addr (R112): 0x00 out of range, a fresh draw while busy, else OUT_BUF[addr]. -/
def hostOutr (addr : BitVec 32) (s : State) : State :=
  if s.outCap ≤ addr.toNat then { s with resp := .byte 0x00#8 }
  else if s.state = .busy then { s.advanceDraws 1 with resp := .byte (Config.draw s.draws) }
  else { s with resp := .byte (s.outByte addr.toNat) }

/-- OUTW addr, v (R113): no effect at any STATE. -/
def hostOutw (_addr : BitVec 32) (_data : Byte) (s : State) : State :=
  { s with resp := .none }

/-- RESET of a powered block (R230 to R232); it returns nothing (R77). -/
def hostReset (s : State) : State :=
  { resetBlock s with resp := .none }

/-- A host transaction takes its whole effect (R101, R239). -/
def transact (t : Transaction) (s : State) : State :=
  match t with
  | .regr idx => hostRegr idx s
  | .regw idx data => hostRegw idx data s
  | .inr addr => hostInr addr s
  | .inw addr data => hostInw addr data s
  | .outr addr => hostOutr addr s
  | .outw addr data => hostOutw addr data s
  | .reset => hostReset s

/-- Transactions in the host's program order, with no PERFORM between them. -/
def transactAll (ts : List Transaction) (s : State) : State :=
  ts.foldl (fun s t => transact t s) s

end Sys2Proof.Machine
end

