-- ==== Sys2Proof/Machine/Perform.lean ====
section
/-! DEFINITION. The block's own step and what one event does (40_host_interface.md R100, R114). -/

namespace Sys2Proof.Machine

/-- PERFORM (R114, R115): the operation latched at issue is executed. Where STATE is not BUSY it is not enabled and the
state stays (log 6). -/
def perform (s : State) : Host.Outcome State Fault Refusal := exec s.opL s

/-- What one event of the total order does (R60, R100). -/
def applyEvent (e : Event) (s : State) : Host.Outcome State Fault Refusal :=
  match e with
  | .host t => .next (transact t s)
  | .perform => perform s
  | .powerOn => .next (powerOn s)

/-- Where the next command word is placed (log 8): the command of word `w` stands issued by the rule of R103, from a block that is
not busy, and PERFORM is the next event. A word that the issue turns away (R104) stands as the REGW CMD about to happen. -/
def placeCommand (w : Word) (s : State) : State :=
  let ready := if s.state = .busy then { s with state := .idle } else s
  let issued := issue w ready
  if issued.state = .busy then { issued with events := .perform :: s.events }
  else { ready with events := .host (.regw RegName.cmd.idx w) :: s.events }

end Sys2Proof.Machine
end

