-- ==== Sys2Proof/Machine/Step.lean ====
section
/-! DEFINITION. One step of the machine: the next event of the total order of 20_memory.md R60 happens. -/

namespace Sys2Proof.Machine

/-- One step. The next event happens and leaves the list; where no event is left, the block's PERFORM is the only step
there is, so that a BUSY block eventually performs (R114) and any other keeps all its state (R216; log 5). -/
def step (s : State) : Host.Outcome State Fault Refusal :=
  match s.events with
  | [] => perform s
  | e :: rest => applyEvent e { s with events := rest }

/-- The step in which event `e` happens at `s`, before the events `s` already has coming. -/
def occur (e : Event) (s : State) : Host.Outcome State Fault Refusal :=
  step { s with events := e :: s.events }

/-- `s` with the command of the given word placed so that the next step performs it (log 8). Bits of `w` at and above
`nbits` are 0. -/
def State.withFetchWord (s : State) (nbits w : Nat) : State :=
  placeCommand (BitVec.ofNat 32 (w % 2 ^ nbits)) s

end Sys2Proof.Machine
end

