-- ==== Sys2Proof/Machine/HostProgram.lean ====
section
/-! DEFINITION. The host's notation (30_encoding.md R78) and the expansions of the pseudo-instructions (R79). The host's
own control flow and bound names are outside the block (R22, R78; log 14). -/

namespace Sys2Proof.Machine

/-! ## Notation (R78) -/

/-- The spelling of a register in the notation (R78). -/
def regText : RegName → String
  | .cmd => "CMD"
  | .status => "STATUS"
  | .inLen => "IN_LEN"
  | .outLen => "OUT_LEN"
  | .errPos => "ERR_POS"
  | .inCap => "IN_CAP"
  | .rsv6 => "RSV6"
  | .rsv7 => "RSV7"

/-- One transaction as a line of the notation, numbers in decimal; `name` is what a read binds (R78). -/
def transactionText (name : String) : Transaction → String
  | .regr idx => "regr " ++ regText (RegName.ofIdx idx) ++ " -> " ++ name
  | .regw idx data => "regw " ++ regText (RegName.ofIdx idx) ++ ", " ++ toString data.toNat
  | .inr addr => "inr " ++ toString addr.toNat ++ " -> " ++ name
  | .inw addr data => "inw " ++ toString addr.toNat ++ ", " ++ toString data.toNat
  | .outr addr => "outr " ++ toString addr.toNat ++ " -> " ++ name
  | .outw addr data => "outw " ++ toString addr.toNat ++ ", " ++ toString data.toNat
  | .reset => "reset"

/-! ## Pseudo-instructions (R79) -/

/-- `inw a, b0` ... from index `a` on. -/
def inwAll (a : Nat) : List Byte → List Transaction
  | [] => []
  | b :: bs => .inw (BitVec.ofNat 32 a) b :: inwAll (a + 1) bs

/-- `outr t -> v`, `inw t, v` for t from `a` on, where the reads return `values`. -/
def copyAll (a : Nat) : List Byte → List Transaction
  | [] => []
  | v :: vs => .outr (BitVec.ofNat 32 a) :: .inw (BitVec.ofNat 32 a) v :: copyAll (a + 1) vs

/-- The expansion of a pseudo-instruction (R79). -/
def Pseudo.expand : Pseudo → List Transaction
  | .command i => [.regw RegName.cmd.idx (encode i)]
  | .load bytes => inwAll 0 bytes ++ [.regw RegName.inLen.idx (BitVec.ofNat 32 bytes.length)]
  | .wait repeats => List.replicate (repeats + 1) (.regr RegName.status.idx)
  | .clrdrop => [.regw RegName.status.idx 0x00000004#32]
  | .fetch count => (List.range count).map fun t => .outr (BitVec.ofNat 32 t)
  | .copyback values =>
    .regr RegName.outLen.idx :: copyAll 0 values ++ [.regw RegName.inLen.idx (BitVec.ofNat 32 values.length)]

/-- The bytes a `fetch` or a `copyback` of the whole result reads: OUT_BUF[0 .. OUT_LEN) (R62, R79). -/
def State.output (s : State) : List Byte :=
  (List.range s.outLen.toNat).map s.outByte

end Sys2Proof.Machine
end

