-- ==== Sys2Proof/Machine/Instances.lean ====
section
/-! DEFINITION. Several independent instances of the block (20_memory.md R66, 60_exceptions.md R214): they have no common
state, and the order between them is the host's own (log 11). -/

namespace Sys2Proof.Machine

/-- Several instances, each with a state of its own (R66). -/
abbrev System := List State

/-- Instance `k` takes one step; there is no such step where there is no instance `k`, and the system stays. -/
def System.stepInstance (k : Nat) (sys : System) : Host.Outcome System Fault Refusal :=
  match sys[k]? with
  | none => .next sys
  | some s =>
    match step s with
    | .next t => .next (sys.set k t)
    | .fault r => .fault r
    | .refused r => .refused r

end Sys2Proof.Machine
end

