-- ==== Sys2Proof/Safety.lean ====
section
/-! DEFINITION. What holds of the block in every reachable state (10_state.md R40, 00_scope.md R9, 20_memory.md R52), in the
terms the statements use. -/

namespace Sys2Proof

open Sys2Proof.Machine

/-- The clauses (a) to (f) of R40. -/
structure StatusInv (s : State) : Prop where
  idle : s.state = .idle → s.err = .none ∧ s.errData = 0#8 ∧ s.errPos = 0#32 ∧ s.outLen = 0#32
  busy : s.state = .busy →
    s.err = .none ∧ s.errData = 0#8 ∧ s.errPos = 0#32 ∧ s.outLen = 0#32 ∧ s.inLen.toNat ≤ s.inCap
  done : s.state = .done → s.err = .none ∧ s.errData = 0#8 ∧ s.errPos = 0#32 ∧ s.outLen.toNat ≤ s.outCap
  error : s.state = .error → s.err ≠ .none ∧ s.outLen = 0#32
  errData : s.errData ≠ 0#8 → s.err = .unknownEscapeCode
  errPos : s.errPos ≠ 0#32 → s.err = .truncatedEscape ∨ s.err = .unknownEscapeCode

/-- The invariant of the block: the parameter is in range (R9), R40 holds, and both buffers' contents are in canonical
form and inside their buffers (R50, R52). -/
structure Inv (s : State) : Prop where
  capacity : capacityOk s.inCap = true
  status : StatusInv s
  inWf : Memory.wf s.inBuf = true
  inWithin : Memory.within s.inCap s.inBuf = true
  outWf : Memory.wf s.outBuf = true
  outWithin : Memory.within s.outCap s.outBuf = true

/-- A command is in flight and its input fits the buffer: what the issue of R103 ensures, and all PERFORM needs (R114, R52). -/
def Ready (s : State) : Prop :=
  s.state = .busy ∧ s.inLen.toNat ≤ s.inCap ∧ capacityOk s.inCap = true

/-! ## The bit streams of R15 and the units UNESCAPE reads -/

/-- The bit stream of bytes, 8 bits a byte, most significant bit first (R15). -/
def bitStream (x : Nat → Byte) (k : Nat) : Bool := (x (k / 8)).getLsbD (7 - k % 8)

/-- The 7-bit stream of bytes, bits 6 down to 0 of each (R15). -/
def sevenBitStream (x : Nat → Byte) (k : Nat) : Bool := (x (k / 7)).getLsbD (6 - k % 7)

/-- The bytes of a buffer by index. -/
def byteAt (x : List Byte) (i : Nat) : Byte := x.getD i 0#8

/-- What UNESCAPE reads at one scan position (R167): one byte that is no marker, or an escape pair. -/
inductive EscUnit
  | plain (v : Byte)
  | pair (k : Reserved)
  deriving DecidableEq, Repr

/-- The bytes a unit has in the escaped buffer (R161, R170). -/
def EscUnit.wire : EscUnit → List Byte
  | .plain v => [v]
  | .pair k => [0x7F#8, k.code]

/-- The byte a unit stands for (R162, R170). -/
def EscUnit.value : EscUnit → Byte
  | .plain v => v
  | .pair k => k.byte

/-- A plain unit is no marker (R170). -/
def EscUnit.valid : EscUnit → Bool
  | .plain v => v != 0x7F#8
  | .pair _ => true

/-- Whether a unit is an escape pair. -/
def EscUnit.isPair : EscUnit → Bool
  | .plain _ => false
  | .pair _ => true

/-- The escaped buffer that a sequence of units makes. -/
def wireOf (us : List EscUnit) : List Byte := us.flatMap EscUnit.wire

end Sys2Proof
end

