-- ==== Sys2Proof/Certificates/Slice0/Obligations.lean ====
section
/-! DEFINITION. The statements for the provers, from the numbered rules of spec/. `occur e s` is the step in which event `e`
happens at `s`; it leaves the events `s` has coming. That the order of R60 is a list of coming events is the model's form (log 5).
No statement rests on the value of a draw, of a power-on byte or of
OP_L after a reset (logs 2, 3, 4), nor on the value `State.reset` gives to IN_CAP (log 1). -/

open Sys2Proof Sys2Proof.Machine

/-! ## Encoding -/

/-- R72: the opcode map, a match on the whole 32-bit word. -/
def Obligations.CommandWordIffInstruction : Prop :=
  ∀ (w : Word) (i : Instr), decode w = .ok i ↔
    (w = 0x00000000#32 ∧ i = .pack) ∨ (w = 0x00000001#32 ∧ i = .unpack) ∨
    (w = 0x00000002#32 ∧ i = .escape) ∨ (w = 0x00000003#32 ∧ i = .unescape)

/-- R73: which words are illegal (all but four), and what REGW CMD of one does in each STATE. -/
def Obligations.IllegalWordRejectedOrDropped : Prop :=
  ∀ (w : Word) (s : State),
    ((4 ≤ (w.extractLsb' 0 3).toNat ∨ w.extractLsb' 3 29 ≠ 0#29) ↔ 3 < w.toNat) ∧
    (3 < w.toNat →
      (s.state ≠ .busy → occur (.host (.regw 0#3 w)) s = .next { s with
        state := .error, err := .illegalCmd, errData := 0x00#8, errPos := 0#32, outLen := 0#32, resp := .none }) ∧
      (s.state = .busy → occur (.host (.regw 0#3 w)) s = .next { s with drop := true, resp := .none }))

/-- The four rows of the opcode table, each word decoded and encoded (R71, R72). -/
def Obligations.TableWordsDecodeAndEncode : Prop :=
  decode 0b00000000000000000000000000000000#32 = .ok .pack ∧
  decode 0b00000000000000000000000000000001#32 = .ok .unpack ∧
  decode 0b00000000000000000000000000000010#32 = .ok .escape ∧
  decode 0b00000000000000000000000000000011#32 = .ok .unescape ∧
  ∀ i : Instr, i.wf = true ∧ decode (encode i) = .ok i

/-- The register map of R23: eight registers, one at each index, at byte offset 4 * index. -/
def Obligations.RegisterIndicesNameRegisters : Prop :=
  (∀ r : RegName, RegName.ofIdx r.idx = r) ∧ (∀ k : BitVec 3, (RegName.ofIdx k).idx = k) ∧
  RegName.ofIdx 0#3 = .cmd ∧ RegName.ofIdx 1#3 = .status ∧ RegName.ofIdx 2#3 = .inLen ∧ RegName.ofIdx 3#3 = .outLen ∧
  RegName.ofIdx 4#3 = .errPos ∧ RegName.ofIdx 5#3 = .inCap ∧ RegName.ofIdx 6#3 = .rsv6 ∧ RegName.ofIdx 7#3 = .rsv7 ∧
  RegName.byteOffset .rsv7 = 0x1C

/-! ## Register transactions -/

/-- R103: the issue, with its two checks in order. The next state is given whole, so nothing else changes: both buffers,
IN_LEN and DROP among the rest. -/
def Obligations.IssueStartsOrRejectsTheCommand : Prop :=
  ∀ (s : State) (w : Word), s.state ≠ .busy →
    (∀ r, decode w = .error r → occur (.host (.regw 0#3 w)) s = .next { s with
      state := .error, err := .illegalCmd, errData := 0x00#8, errPos := 0#32, outLen := 0#32, resp := .none }) ∧
    (∀ i, decode w = .ok i → s.inCap < s.inLen.toNat → occur (.host (.regw 0#3 w)) s = .next { s with
      state := .error, err := .badLength, errData := 0x00#8, errPos := 0#32, outLen := 0#32, resp := .none }) ∧
    (∀ i, decode w = .ok i → s.inLen.toNat ≤ s.inCap → occur (.host (.regw 0#3 w)) s = .next { s with
      state := .busy, opL := i, err := .none, errData := 0x00#8, errPos := 0#32, outLen := 0#32, resp := .none })

/-- R102: REGW CMD while busy is dropped, whatever the word. -/
def Obligations.CommandWriteWhileBusyOnlySetsDrop : Prop :=
  ∀ (s : State) (w : Word), s.state = .busy →
    occur (.host (.regw 0#3 w)) s = .next { s with drop := true, resp := .none }

/-- R105: REGW STATUS clears DROP where bit 2 of the word is 1 and does nothing else, at every STATE. -/
def Obligations.StatusWriteClearsOnlyDrop : Prop :=
  ∀ (s : State) (w : Word),
    occur (.host (.regw 1#3 w)) s = .next { s with drop := s.drop && !w.getLsbD 2, resp := .none }

/-- R106: REGW IN_LEN stores all 32 bits, or is dropped while busy. -/
def Obligations.InLenWriteStoresOrIsDropped : Prop :=
  ∀ (s : State) (w : Word),
    (s.state = .busy → occur (.host (.regw 2#3 w)) s = .next { s with drop := true, resp := .none }) ∧
    (s.state ≠ .busy → occur (.host (.regw 2#3 w)) s = .next { s with inLen := w, resp := .none })

/-- R107 and R34: REGW of the read-only and the reserved registers has no effect at any STATE. -/
def Obligations.ReadOnlyRegisterWritesDoNothing : Prop :=
  ∀ (s : State) (idx : BitVec 3) (w : Word), 3 ≤ idx.toNat →
    occur (.host (.regw idx w)) s = .next { s with resp := .none }

/-- R108: what REGR returns at each index, STATUS as the sum of its shifted fields, and that no state changes. -/
def Obligations.RegisterReadReturnsTheRegister : Prop :=
  ∀ s : State,
    occur (.host (.regr 0#3)) s = .next { s with resp := .word 0x00000000#32 } ∧
    occur (.host (.regr 1#3)) s = .next { s with resp := .word (
      (s.errData.setWidth 32 <<< 8) ||| (s.err.code.setWidth 32 <<< 4) |||
        ((BitVec.ofBool s.drop).setWidth 32 <<< 2) ||| s.state.code.setWidth 32) } ∧
    occur (.host (.regr 2#3)) s = .next { s with resp := .word s.inLen } ∧
    occur (.host (.regr 3#3)) s = .next { s with resp := .word s.outLen } ∧
    occur (.host (.regr 4#3)) s = .next { s with resp := .word s.errPos } ∧
    occur (.host (.regr 5#3)) s = .next { s with resp := .word (BitVec.ofNat 32 s.inCap) } ∧
    occur (.host (.regr 6#3)) s = .next { s with resp := .word 0x00000000#32 } ∧
    occur (.host (.regr 7#3)) s = .next { s with resp := .word 0x00000000#32 }

/-- The codes of STATE and ERR (R26, R27). -/
def Obligations.StatusCodesAreAsListed : Prop :=
  OpState.idle.code = 0#2 ∧ OpState.busy.code = 1#2 ∧ OpState.done.code = 2#2 ∧ OpState.error.code = 3#2 ∧
  ErrCode.none.code = 0#4 ∧ ErrCode.truncatedEscape.code = 1#4 ∧ ErrCode.unknownEscapeCode.code = 2#4 ∧
  ErrCode.illegalCmd.code = 3#4 ∧ ErrCode.badLength.code = 4#4

/-- R208: in ERROR, a REGW CMD leaves the old error: the record is cleared, and the block is BUSY or records a new issue
error. -/
def Obligations.NextCommandLeavesError : Prop :=
  ∀ (s : State) (w : Word), s.state = .error →
    ∃ t, occur (.host (.regw 0#3 w)) s = .next t ∧ t.errData = 0x00#8 ∧ t.errPos = 0#32 ∧ t.outLen = 0#32 ∧
      ((t.state = .busy ∧ t.err = .none) ∨ (t.state = .error ∧ (t.err = .illegalCmd ∨ t.err = .badLength)))

/-! ## Buffer transactions -/

/-- R110: INW is dropped while busy; else it stores one byte of IN_BUF in range and does nothing out of range. Every other
byte of IN_BUF reads as before, and nothing else changes. -/
def Obligations.InputWriteStoresOneByte : Prop :=
  ∀ (s : State) (addr : BitVec 32) (v : Byte),
    (s.state = .busy → occur (.host (.inw addr v)) s = .next { s with drop := true, resp := .none }) ∧
    (s.state ≠ .busy → s.inCap ≤ addr.toNat → occur (.host (.inw addr v)) s = .next { s with resp := .none }) ∧
    (s.state ≠ .busy → addr.toNat < s.inCap → ∃ t, occur (.host (.inw addr v)) s = .next t ∧
      t = { s with inBuf := t.inBuf, resp := .none } ∧ t.inByte addr.toNat = v ∧
      ∀ a, a ≠ addr.toNat → t.inByte a = s.inByte a)

/-- R111: INR returns IN_BUF[addr] in range and 0x00 out of range, at every STATE, and changes nothing. -/
def Obligations.InputReadReturnsTheStoredByte : Prop :=
  ∀ (s : State) (addr : BitVec 32),
    (addr.toNat < s.inCap → occur (.host (.inr addr)) s = .next { s with resp := .byte (s.inByte addr.toNat) }) ∧
    (s.inCap ≤ addr.toNat → occur (.host (.inr addr)) s = .next { s with resp := .byte 0x00#8 })

/-- R112: OUTR returns 0x00 out of range, some byte while busy (which one, no rule says), else OUT_BUF[addr]. Only the
model's count of draws moves (log 3). -/
def Obligations.OutputReadReturnsTheStoredByte : Prop :=
  ∀ (s : State) (addr : BitVec 32),
    (2 * s.inCap ≤ addr.toNat → occur (.host (.outr addr)) s = .next { s with resp := .byte 0x00#8 }) ∧
    (addr.toNat < 2 * s.inCap → s.state = .busy →
      ∃ b, occur (.host (.outr addr)) s = .next { s with resp := .byte b, draws := s.draws + 1 }) ∧
    (addr.toNat < 2 * s.inCap → s.state ≠ .busy →
      occur (.host (.outr addr)) s = .next { s with resp := .byte (s.outByte addr.toNat) })

/-- R58: a read changes nothing but what it returns, and returns the same again. The exception of R58, an OUTR while busy, is left
out here (`OutputReadReturnsTheStoredByte` has it). -/
def Obligations.ReadsAreRepeatable : Prop :=
  ∀ (s t u : State) (x : Transaction),
    ((∃ k, x = .regr k) ∨ (∃ a, x = .inr a) ∨ (s.state ≠ .busy ∧ ∃ a, x = .outr a)) →
    occur (.host x) s = .next t → occur (.host x) t = .next u → t = { s with resp := t.resp } ∧ u = t

/-- R113: OUTW has no effect at any STATE. -/
def Obligations.OutputWriteHasNoEffect : Prop :=
  ∀ (s : State) (addr : BitVec 32) (v : Byte), occur (.host (.outw addr v)) s = .next { s with resp := .none }

/-! ## The block's step -/

/-- R114: PERFORM is enabled exactly while busy, and it is the execution of the operation latched at issue. It happens where
the order of events says so, and where no event is left. Any other block takes no step (log 6). -/
def Obligations.StepPerformsTheLatchedCommand : Prop :=
  (∀ (s : State) (rest : List Event), s.events = .perform :: rest → step s = exec s.opL { s with events := rest }) ∧
  (∀ s : State, s.events = [] → step s = exec s.opL s) ∧
  (∀ (s : State) (i : Instr), s.state ≠ .busy → exec i s = .next s)

/-- A command word written to CMD and then performed is `exec` of the instruction it decodes to: the issue (R103) and PERFORM
(R114, R115) as two steps of the machine. -/
def Obligations.IssuedWordRunsAsItsInstruction : Prop :=
  ∀ (s : State) (w : Word) (i : Instr) (rest : List Event),
    s.events = .host (.regw 0#3 w) :: .perform :: rest → s.state ≠ .busy → s.inLen.toNat ≤ s.inCap → decode w = .ok i →
    ∃ u, step s = .next u ∧
      u = { s with state := .busy, opL := i, err := .none, errData := 0x00#8, errPos := 0#32, outLen := 0#32,
                   resp := .none, events := .perform :: rest } ∧
      step u = exec i { u with events := rest }

/-- The model's placing of a command word (log 8): the next step executes the instruction it decodes to, on the state its issue
leaves. -/
def Obligations.PlacedWordIsRunByTheNextStep : Prop :=
  ∀ (s : State) (w : Nat) (i : Instr), decodeTableWord 32 w = some i → s.inLen.toNat ≤ s.inCap →
    step (s.withFetchWord 32 w) = exec i { s with
      state := .busy, opL := i, err := .none, errData := 0x00#8, errPos := 0#32, outLen := 0#32 }

/-- R114, R118: the block eventually leaves BUSY: whatever events come first, one step after them it is not BUSY, be it by a
PERFORM or by a reset among them. That PERFORM is the step where no event is left is the model's form of R114's weak fairness
(log 5, DESIGN CHOICE). -/
def Obligations.BlockEventuallyLeavesBusy : Prop :=
  ∀ s : State, ∃ t, Sys2Proof.core.run (s.events.length + 1) s = .next t ∧ t.state ≠ .busy

/-- Each step answers a next state. For a host transaction it is R59, R119 and R211: no access faults, and each is allowed at every
STATE. For PERFORM it is R115 to R117 with R207, read by log 9 (DEDUCED): an error is a next state with STATE = ERROR, where
93_implementation_defined.md U15 and U16 speak of a fault outcome. That a PERFORM which is not enabled keeps the state is the model's
choice (log 6, DESIGN CHOICE). -/
def Obligations.EveryStepAnswersANextState : Prop :=
  ∀ s : State, ∃ t, step s = .next t

/-! ## What the four commands do -/

/-- PACK (R134, R116) with its result by the closed form of R135: for n = IN_LEN, OUT_LEN becomes (8n+6) div 7, each result byte has
bit 7 zero and bits 6..0 from the input's bit stream, zero past its end; every other byte and all else is unchanged. -/
def Obligations.PackCommitsTheSevenBitSymbols : Prop :=
  ∀ s : State, Ready s → ∃ t, exec .pack s = .next t ∧
    t = { s with state := .done, outBuf := t.outBuf, outLen := t.outLen } ∧
    t.outLen.toNat = (8 * s.inLen.toNat + 6) / 7 ∧
    (∀ j, j < (8 * s.inLen.toNat + 6) / 7 → (t.outByte j).getLsbD 7 = false ∧
      ∀ r, r < 7 → (t.outByte j).getLsbD (6 - r) =
        (decide (7 * j + r < 8 * s.inLen.toNat) && bitStream s.inByte (7 * j + r))) ∧
    ∀ a, (8 * s.inLen.toNat + 6) / 7 ≤ a → t.outByte a = s.outByte a

/-- UNPACK (R137, R116) with its result by the closed form of R138: for m = IN_LEN, OUT_LEN becomes (7m) div 8 and each result byte
holds the next eight bits of the input's 7-bit stream; every other byte and all else is unchanged. -/
def Obligations.UnpackCommitsTheEightBitBytes : Prop :=
  ∀ s : State, Ready s → ∃ t, exec .unpack s = .next t ∧
    t = { s with state := .done, outBuf := t.outBuf, outLen := t.outLen } ∧
    t.outLen.toNat = 7 * s.inLen.toNat / 8 ∧
    (∀ i, i < 7 * s.inLen.toNat / 8 → ∀ q, q < 8 →
      (t.outByte i).getLsbD (7 - q) = sevenBitStream s.inByte (8 * i + q)) ∧
    ∀ a, 7 * s.inLen.toNat / 8 ≤ a → t.outByte a = s.outByte a

/-- ESCAPE (R164, R116): the result is the input with each reserved byte replaced by its pair, OUT_LEN its length; every byte of
OUT_BUF past it and all else is unchanged. -/
def Obligations.EscapeCommitsTheSubstitution : Prop :=
  ∀ s : State, Ready s → ∃ t, exec .escape s = .next t ∧
    t = { s with state := .done, outBuf := t.outBuf, outLen := t.outLen } ∧
    t.output = s.input.flatMap (fun v =>
      if v = 0x0D#8 then [0x7F#8, 0x01#8] else if v = 0x0A#8 then [0x7F#8, 0x02#8]
      else if v = 0x7F#8 then [0x7F#8, 0x7F#8] else [v]) ∧
    t.outLen.toNat = s.inLen.toNat + s.input.countP isReserved ∧
    ∀ a, t.outLen.toNat ≤ a → t.outByte a = s.outByte a

/-- UNESCAPE (R167, R170, R116) of an input made of plain bytes and escape pairs: the result is what the units stand for. -/
def Obligations.UnescapeCommitsTheUnitsValues : Prop :=
  ∀ (s : State) (us : List EscUnit), Ready s → us.all EscUnit.valid = true → s.input = wireOf us →
    ∃ t, exec .unescape s = .next t ∧
      t = { s with state := .done, outBuf := t.outBuf, outLen := t.outLen } ∧
      t.output = us.map EscUnit.value ∧ t.outLen.toNat = us.length ∧
      ∀ a, us.length ≤ a → t.outByte a = s.outByte a

/-- R201 with R168 and R117: the marker as the last input byte. ERR = TRUNCATED_ESCAPE, ERR_POS = n - 1, ERR_DATA = 0x00,
OUT_LEN = 0; OUT_BUF from ERR_POS on and all else is unchanged (the bytes below ERR_POS are draws, counted by the model's `draws`). -/
def Obligations.UnescapeReportsTruncatedEscape : Prop :=
  ∀ (s : State) (us : List EscUnit), Ready s → us.all EscUnit.valid = true → s.input = wireOf us ++ [0x7F#8] →
    ∃ t, exec .unescape s = .next t ∧
      t = { s with state := .error, err := .truncatedEscape, errPos := s.inLen - 1#32, errData := 0x00#8,
                   outLen := 0#32, outBuf := t.outBuf, draws := t.draws } ∧
      ∀ a, s.inLen.toNat - 1 ≤ a → t.outByte a = s.outByte a

/-- R202 with R169, R171 and R117: the first marker that is not followed by an escape code. ERR = UNKNOWN_ESCAPE_CODE, ERR_POS = the
index of that marker, ERR_DATA = the byte after it, OUT_LEN = 0; OUT_BUF from ERR_POS on and all else is unchanged. -/
def Obligations.UnescapeReportsUnknownEscapeCode : Prop :=
  ∀ (s : State) (us : List EscUnit) (c : Byte) (rest : List Byte), Ready s → us.all EscUnit.valid = true →
    s.input = wireOf us ++ 0x7F#8 :: c :: rest → c ≠ 0x01#8 → c ≠ 0x02#8 → c ≠ 0x7F#8 →
    ∃ t, exec .unescape s = .next t ∧
      t = { s with state := .error, err := .unknownEscapeCode, errPos := BitVec.ofNat 32 (wireOf us).length, errData := c,
                   outLen := 0#32, outBuf := t.outBuf, draws := t.draws } ∧
      ∀ a, (wireOf us).length ≤ a → t.outByte a = s.outByte a

/-- The three statements about UNESCAPE leave no input out: every buffer is plain bytes and pairs to its end, or up to a marker
that is last, or up to a marker with an unknown code (R167 to R171). -/
def Obligations.EveryInputParsesIntoUnits : Prop :=
  ∀ x : List Byte, ∃ us : List EscUnit, us.all EscUnit.valid = true ∧
    (x = wireOf us ∨ x = wireOf us ++ [0x7F#8] ∨
      ∃ c rest, x = wireOf us ++ 0x7F#8 :: c :: rest ∧ c ≠ 0x01#8 ∧ c ≠ 0x02#8 ∧ c ≠ 0x7F#8)

/-- The frame all four commands share (R30, R35, R41): no PERFORM writes IN_BUF, IN_LEN, DROP, OP_L or the host's side, and no
step changes IN_CAP. -/
def Obligations.PerformLeavesTheHostsSide : Prop :=
  ∀ (i : Instr) (s t : State), exec i s = .next t →
    t.inCap = s.inCap ∧ t.inBuf = s.inBuf ∧ t.inLen = s.inLen ∧ t.drop = s.drop ∧ t.opL = s.opL ∧ t.resp = s.resp ∧
    t.events = s.events ∧ t.powerOns = s.powerOns

/-- R10: the four result lengths against the input's; hence a PERFORM leaves OUT_LEN at most twice IN_LEN and at most OUT_CAP, and
records no error but UNESCAPE's two: none is an overflow of the capacity. -/
def Obligations.ResultLengthsFitOutputBuffer : Prop :=
  (∀ x : List Byte,
    (pack x).length = (8 * x.length + 6) / 7 ∧ (pack x).length ≤ 2 * x.length ∧
    (unpack x).length = 7 * x.length / 8 ∧ (unpack x).length ≤ x.length ∧
    (escape x).length ≤ 2 * x.length ∧ ∀ y, unescape x = .ok y → y.length ≤ x.length) ∧
  ∀ (i : Instr) (s t : State), Inv s → s.state = .busy → exec i s = .next t →
    s.inLen.toNat ≤ s.inCap ∧ t.outLen.toNat ≤ 2 * s.inLen.toNat ∧ t.outLen.toNat ≤ 2 * s.inCap ∧
    (t.err = .none ∨ (i = .unescape ∧ (t.err = .truncatedEscape ∨ t.err = .unknownEscapeCode)))

/-- R120: the outcome is computed from the operation, IN_LEN and the input bytes alone. Two blocks that agree on those end with the
same STATE, error record, OUT_LEN and result bytes, whatever their output buffers, capacities and draws held. -/
def Obligations.OutcomeDependsOnTheInputAlone : Prop :=
  ∀ (i : Instr) (s s' t t' : State), Inv s → Inv s' → s.state = .busy → s'.state = .busy → s.input = s'.input →
    exec i s = .next t → exec i s' = .next t' →
    t.state = t'.state ∧ t.err = t'.err ∧ t.errData = t'.errData ∧ t.errPos = t'.errPos ∧ t.outLen = t'.outLen ∧
    t.output = t'.output

/-! ## Laws of the codec functions -/

/-- R132: where a cursor stands after k advances from (0, top). -/
def Obligations.CursorStandsAtQuotientAndRemainder : Prop :=
  ∀ top k : Nat, advMany top k (0, top) = (k / (top + 1), top - k % (top + 1))

/-- R136: every byte PACK gives is 7-bit clean, and the padding bits, 0 to 6 of them, are 0. -/
def Obligations.PackOutputIsSevenBitClean : Prop :=
  ∀ x : List Byte,
    (∀ v ∈ pack x, v.toNat ≤ 127 ∧ v &&& 0x80#8 = 0#8) ∧
    8 * x.length ≤ 7 * packLen x.length ∧ 7 * packLen x.length - 8 * x.length ≤ 6 ∧
    ∀ k, 8 * x.length ≤ k → k < 7 * packLen x.length → sevenBitStream (byteAt (pack x)) k = false

/-- R141: UNPACK undoes PACK on every buffer, and the sizes agree for every natural number. -/
def Obligations.UnpackUndoesPack : Prop :=
  (∀ x : List Byte, unpack (pack x) = x ∧ (unpack (pack x)).length = x.length) ∧
  ∀ n : Nat, unpackLen (packLen n) = n

/-- R139: bit 7 of every input byte of UNPACK is ignored. -/
def Obligations.UnpackIgnoresBitSeven : Prop :=
  ∀ x x' : List Byte, x.map (fun v => v &&& 0x7F#8) = x'.map (fun v => v &&& 0x7F#8) → unpack x = unpack x'

/-- R140: the trailing bits, 0 to 7 of them and 7 exactly when m mod 8 = 1, never affect UNPACK's result. -/
def Obligations.UnpackIgnoresTrailingBits : Prop :=
  ∀ x x' : List Byte, x.length = x'.length →
    (∀ k, k < 8 * unpackLen x.length → sevenBitStream (byteAt x) k = sevenBitStream (byteAt x') k) →
    unpack x = unpack x' ∧ 8 * unpackLen x.length ≤ 7 * x.length ∧ 7 * x.length - 8 * unpackLen x.length ≤ 7 ∧
    (7 * x.length - 8 * unpackLen x.length = 7 ↔ x.length % 8 = 1)

/-- R142: the lengths PACK produces are exactly those that are not 1 modulo 8. -/
def Obligations.PackedLengthsAreNotOneModEight : Prop :=
  ∀ m : Nat, ((∃ n, packLen n = m) ↔ m % 8 ≠ 1) ∧ (packLen (unpackLen m) = m ↔ m % 8 ≠ 1) ∧
    (m % 8 = 1 → packLen (unpackLen m) = m - 1)

/-- R143: when PACK undoes UNPACK. -/
def Obligations.PackUndoesUnpackIff : Prop :=
  ∀ y : List Byte, pack (unpack y) = y ↔
    (∀ v ∈ y, v.toNat ≤ 127) ∧ y.length % 8 ≠ 1 ∧
    ∀ k, 8 * unpackLen y.length ≤ k → k < 7 * y.length → sevenBitStream (byteAt y) k = false

/-- R161, R162: the escape table and its inverse, over all 256 bytes. -/
def Obligations.EscapeTableIsABijection : Prop :=
  (∀ v : Byte, isReserved v = true ↔ v = 0x0D#8 ∨ v = 0x0A#8 ∨ v = 0x7F#8) ∧
  (∀ c : Byte, isCode c = true ↔ c = 0x01#8 ∨ c = 0x02#8 ∨ c = 0x7F#8) ∧
  (∀ (v : Byte) (k : Reserved), reservedOf? v = some k ↔ v = k.byte) ∧
  (∀ (c : Byte) (k : Reserved), codeOf? c = some k ↔ c = k.code) ∧
  Reserved.byte .cr = 0x0D#8 ∧ Reserved.code .cr = 0x01#8 ∧ Reserved.byte .lf = 0x0A#8 ∧ Reserved.code .lf = 0x02#8 ∧
  Reserved.byte .esc = 0x7F#8 ∧ Reserved.code .esc = 0x7F#8

/-- R165: the length of ESCAPE's result. -/
def Obligations.EscapeLengthCountsReservedBytes : Prop :=
  ∀ x : List Byte,
    (escape x).length = x.length + x.countP isReserved ∧
    x.length ≤ (escape x).length ∧ (escape x).length ≤ 2 * x.length

/-- R166: ESCAPE's result holds no CR and no LF, and every marker in it opens a pair as UNESCAPE parses it. -/
def Obligations.EscapeOutputHasNoRawReservedByte : Prop :=
  ∀ x : List Byte, 0x0D#8 ∉ escape x ∧ 0x0A#8 ∉ escape x ∧
    ∃ us : List EscUnit, us.all EscUnit.valid = true ∧ escape x = wireOf us

/-- R172: UNESCAPE undoes ESCAPE on every buffer. -/
def Obligations.UnescapeUndoesEscape : Prop :=
  ∀ x : List Byte, unescape (escape x) = .ok x

/-- R173: the length of UNESCAPE's result is that of its input less the pairs consumed, hence at least half of it. -/
def Obligations.UnescapeLengthCountsPairs : Prop :=
  ∀ x y : List Byte, unescape x = .ok y →
    (∃ us : List EscUnit, us.all EscUnit.valid = true ∧ x = wireOf us ∧
      y.length = x.length - us.countP EscUnit.isPair) ∧
    (x.length + 1) / 2 ≤ y.length ∧ y.length ≤ x.length

/-- R174: when ESCAPE undoes UNESCAPE, and two buffers UNESCAPE gives one result for. -/
def Obligations.EscapeUndoesUnescapeIff : Prop :=
  (∀ x y : List Byte, unescape x = .ok y → (escape y = x ↔ 0x0D#8 ∉ x ∧ 0x0A#8 ∉ x)) ∧
  unescape [0x0D#8] = .ok [0x0D#8] ∧ unescape [0x7F#8, 0x01#8] = .ok [0x0D#8]

/-- R175: the source's composition of all four operations gives the original bytes. -/
def Obligations.TransportFormRoundTrips : Prop :=
  ∀ x : List Byte, ∃ y, unescape (escape (pack x)) = .ok y ∧ y = pack x ∧ unpack y = x

/-! ## The machine as a whole -/

/-- R40 in every reachable state, by the step: with the parameter in range (R9) and both buffers' contents canonical and inside
their buffers (R50, R52), every step keeps the invariant. -/
def Obligations.StepKeepsTheInvariant : Prop :=
  ∀ s t : State, Inv s → step s = .next t → Inv t

/-- The invariant holds right after reset. That IN_CAP is in range there is the model's choice (log 1). -/
def Obligations.ResetMeetsTheInvariant : Prop := Inv State.reset

/-- R230 at the state the model calls reset: the registers' values. -/
def Obligations.ResetStateRegistersReadZero : Prop :=
  State.reset.state = .idle ∧ State.reset.drop = false ∧ State.reset.err = .none ∧ State.reset.errData = 0x00#8 ∧
  State.reset.inLen = 0#32 ∧ State.reset.outLen = 0#32 ∧ State.reset.errPos = 0#32 ∧
  readReg .status State.reset = 0x00000000#32 ∧ readReg .cmd State.reset = 0x00000000#32

/-- R230 to R232: RESET at every STATE. The registers take their values; IN_BUF is unchanged; OUT_BUF is unchanged but for the bytes
an aborted command could have written. OP_L and the count of draws are not stated. -/
def Obligations.ResetSetsRegistersAndKeepsBuffers : Prop :=
  ∀ s : State, ∃ t, occur (.host .reset) s = .next t ∧
    t = { s with state := .idle, drop := false, err := .none, errData := 0x00#8, inLen := 0#32, outLen := 0#32,
                 errPos := 0#32, resp := .none, opL := t.opL, outBuf := t.outBuf, draws := t.draws } ∧
    (s.state ≠ .busy → t.outBuf = s.outBuf) ∧
    ∀ a, min (2 * s.inLen.toNat) (2 * s.inCap) ≤ a → t.outByte a = s.outByte a

/-- R233, R230: power-on resets the registers; the parameter and the coming events stay (logs 1, 5). The bytes of both buffers are not stated: each is a
draw. -/
def Obligations.PowerOnSetsRegisters : Prop :=
  ∀ s : State, ∃ t, occur .powerOn s = .next t ∧
    t.state = .idle ∧ t.drop = false ∧ t.err = .none ∧ t.errData = 0x00#8 ∧ t.inLen = 0#32 ∧ t.outLen = 0#32 ∧
    t.errPos = 0#32 ∧ t.inCap = s.inCap ∧ t.events = s.events

/-- R26: after reset the state never returns to IDLE but by another reset. -/
def Obligations.OnlyResetReturnsToIdle : Prop :=
  ∀ s t : State, step s = .next t → t.state = .idle →
    s.state = .idle ∨ (∃ rest, s.events = .host .reset :: rest) ∨ ∃ rest, s.events = .powerOn :: rest

/-- R29: what sets DROP (a REGW CMD, a REGW IN_LEN or an INW while busy) and what clears it (a REGW STATUS with bit 2 set, or a
reset). -/
def Obligations.DropChangesOnlyByItsRule : Prop :=
  ∀ s t : State, step s = .next t →
    (s.drop = false → t.drop = true → s.state = .busy ∧ ∃ rest,
      (∃ w, s.events = .host (.regw 0#3 w) :: rest) ∨ (∃ w, s.events = .host (.regw 2#3 w) :: rest) ∨
      ∃ a v, s.events = .host (.inw a v) :: rest) ∧
    (s.drop = true → t.drop = false → ∃ rest,
      (∃ w : Word, w.getLsbD 2 = true ∧ s.events = .host (.regw 1#3 w) :: rest) ∨
      s.events = .host .reset :: rest ∨ s.events = .powerOn :: rest)

/-- R30, R35 and R110: IN_LEN and the bytes of IN_BUF change only by the host's own writes while the block is not busy, or by the
resets; R233: an unwritten byte keeps its draw. -/
def Obligations.OnlyTheHostChangesTheInput : Prop :=
  ∀ s t : State, step s = .next t →
    (t.inLen ≠ s.inLen →
      (s.state ≠ .busy ∧ ∃ rest, s.events = .host (.regw 2#3 t.inLen) :: rest) ∨
      ∃ rest, s.events = .host .reset :: rest ∨ s.events = .powerOn :: rest) ∧
    ∀ a, t.inByte a ≠ s.inByte a →
      (s.state ≠ .busy ∧ a < s.inCap ∧ ∃ addr v rest, s.events = .host (.inw addr v) :: rest ∧ addr.toNat = a) ∨
      ∃ rest, s.events = .powerOn :: rest

/-- R36, R52: a byte of OUT_BUF changes only inside the buffer by a PERFORM, by a RESET that aborts a command, or by power-on. -/
def Obligations.OutputChangesOnlyByPerformOrReset : Prop :=
  ∀ s t : State, Inv s → step s = .next t → ∀ a, t.outByte a ≠ s.outByte a →
    (s.state = .busy ∧ a < 2 * s.inLen.toNat ∧ a < 2 * s.inCap ∧
      (s.events = [] ∨ ∃ rest, s.events = .perform :: rest ∨ s.events = .host .reset :: rest)) ∨
    ∃ rest, s.events = .powerOn :: rest

/-- R61: a command reads IN_BUF and IN_LEN as they stand at its issue: while it is in flight no host transaction but RESET changes the
operation, the length or an input byte, and the block stays BUSY. -/
def Obligations.InputIsFixedWhileBusy : Prop :=
  ∀ (s t : State) (x : Transaction), s.state = .busy → x ≠ .reset → occur (.host x) s = .next t →
    t.state = .busy ∧ t.opL = s.opL ∧ t.inLen = s.inLen ∧ t.input = s.input ∧ t.outBuf = s.outBuf ∧ t.inCap = s.inCap

/-- R33: IN_CAP is a constant of the instance: no step changes it. -/
def Obligations.CapacityIsConstant : Prop :=
  ∀ s t : State, step s = .next t → t.inCap = s.inCap

/-- R66: a step of one instance never changes another. Instances as the members of a list are the model's form (log 11). -/
def Obligations.InstancesShareNoState : Prop :=
  ∀ (k : Nat) (sys sys' : System), System.stepInstance k sys = .next sys' →
    sys'.length = sys.length ∧ ∀ j, j ≠ k → sys'[j]? = sys[j]?

/-! ## The host's pseudo-instructions -/

/-- R79, `load` (expanded as in log 14): the bytes become the next command's input, and nothing but IN_BUF and IN_LEN changes. -/
def Obligations.LoadMakesTheBytesTheInput : Prop :=
  ∀ (s : State) (bytes : List Byte), s.state ≠ .busy → capacityOk s.inCap = true → bytes.length ≤ s.inCap →
    ∃ t, transactAll (Pseudo.expand (.load bytes)) s = t ∧ t.input = bytes ∧ t.inLen.toNat = bytes.length ∧
      t = { s with inBuf := t.inBuf, inLen := t.inLen, resp := .none } ∧
      ∀ a, bytes.length ≤ a → t.inByte a = s.inByte a

/-- R79, `copyback` of the whole result (expanded as in log 14): the result becomes the next command's input, and nothing but IN_BUF and IN_LEN changes. -/
def Obligations.CopybackMakesTheResultTheInput : Prop :=
  ∀ s : State, s.state ≠ .busy → capacityOk s.inCap = true → s.outLen.toNat ≤ s.inCap →
    ∃ t, transactAll (Pseudo.expand (.copyback s.output)) s = t ∧ t.input = s.output ∧ t.inLen = s.outLen ∧
      t = { s with inBuf := t.inBuf, inLen := t.inLen, resp := .none } ∧
      ∀ a, s.outLen.toNat ≤ a → t.inByte a = s.inByte a
end

