-- ==== Sys2Proof/Laws/State.lean ====
section
/-! SUPPORT. Each field after each named update of the state, true by definition, so that no proof unfolds a record
update. -/

namespace Sys2Proof.Machine

/-! ## writeIn -/

@[simp] theorem writeIn_inCap (a : Nat) (v : Byte) (s : State) : (s.writeIn a v).inCap = s.inCap := rfl
@[simp] theorem writeIn_inBuf (a : Nat) (v : Byte) (s : State) : (s.writeIn a v).inBuf = Memory.write a v s.inBuf := rfl
@[simp] theorem writeIn_outBuf (a : Nat) (v : Byte) (s : State) : (s.writeIn a v).outBuf = s.outBuf := rfl
@[simp] theorem writeIn_state (a : Nat) (v : Byte) (s : State) : (s.writeIn a v).state = s.state := rfl
@[simp] theorem writeIn_drop (a : Nat) (v : Byte) (s : State) : (s.writeIn a v).drop = s.drop := rfl
@[simp] theorem writeIn_err (a : Nat) (v : Byte) (s : State) : (s.writeIn a v).err = s.err := rfl
@[simp] theorem writeIn_errData (a : Nat) (v : Byte) (s : State) : (s.writeIn a v).errData = s.errData := rfl
@[simp] theorem writeIn_inLen (a : Nat) (v : Byte) (s : State) : (s.writeIn a v).inLen = s.inLen := rfl
@[simp] theorem writeIn_outLen (a : Nat) (v : Byte) (s : State) : (s.writeIn a v).outLen = s.outLen := rfl
@[simp] theorem writeIn_errPos (a : Nat) (v : Byte) (s : State) : (s.writeIn a v).errPos = s.errPos := rfl
@[simp] theorem writeIn_opL (a : Nat) (v : Byte) (s : State) : (s.writeIn a v).opL = s.opL := rfl
@[simp] theorem writeIn_resp (a : Nat) (v : Byte) (s : State) : (s.writeIn a v).resp = s.resp := rfl
@[simp] theorem writeIn_events (a : Nat) (v : Byte) (s : State) : (s.writeIn a v).events = s.events := rfl
@[simp] theorem writeIn_draws (a : Nat) (v : Byte) (s : State) : (s.writeIn a v).draws = s.draws := rfl
@[simp] theorem writeIn_powerOns (a : Nat) (v : Byte) (s : State) : (s.writeIn a v).powerOns = s.powerOns := rfl

/-! ## writeOut -/

@[simp] theorem writeOut_inCap (bs : List Byte) (s : State) : (s.writeOut bs).inCap = s.inCap := rfl
@[simp] theorem writeOut_inBuf (bs : List Byte) (s : State) : (s.writeOut bs).inBuf = s.inBuf := rfl
@[simp] theorem writeOut_outBuf (bs : List Byte) (s : State) : (s.writeOut bs).outBuf = Memory.writeFrom 0 bs s.outBuf := rfl
@[simp] theorem writeOut_state (bs : List Byte) (s : State) : (s.writeOut bs).state = s.state := rfl
@[simp] theorem writeOut_drop (bs : List Byte) (s : State) : (s.writeOut bs).drop = s.drop := rfl
@[simp] theorem writeOut_err (bs : List Byte) (s : State) : (s.writeOut bs).err = s.err := rfl
@[simp] theorem writeOut_errData (bs : List Byte) (s : State) : (s.writeOut bs).errData = s.errData := rfl
@[simp] theorem writeOut_inLen (bs : List Byte) (s : State) : (s.writeOut bs).inLen = s.inLen := rfl
@[simp] theorem writeOut_outLen (bs : List Byte) (s : State) : (s.writeOut bs).outLen = s.outLen := rfl
@[simp] theorem writeOut_errPos (bs : List Byte) (s : State) : (s.writeOut bs).errPos = s.errPos := rfl
@[simp] theorem writeOut_opL (bs : List Byte) (s : State) : (s.writeOut bs).opL = s.opL := rfl
@[simp] theorem writeOut_resp (bs : List Byte) (s : State) : (s.writeOut bs).resp = s.resp := rfl
@[simp] theorem writeOut_events (bs : List Byte) (s : State) : (s.writeOut bs).events = s.events := rfl
@[simp] theorem writeOut_draws (bs : List Byte) (s : State) : (s.writeOut bs).draws = s.draws := rfl
@[simp] theorem writeOut_powerOns (bs : List Byte) (s : State) : (s.writeOut bs).powerOns = s.powerOns := rfl

/-! ## advanceDraws -/

@[simp] theorem advanceDraws_inCap (n : Nat) (s : State) : (s.advanceDraws n).inCap = s.inCap := rfl
@[simp] theorem advanceDraws_inBuf (n : Nat) (s : State) : (s.advanceDraws n).inBuf = s.inBuf := rfl
@[simp] theorem advanceDraws_outBuf (n : Nat) (s : State) : (s.advanceDraws n).outBuf = s.outBuf := rfl
@[simp] theorem advanceDraws_state (n : Nat) (s : State) : (s.advanceDraws n).state = s.state := rfl
@[simp] theorem advanceDraws_drop (n : Nat) (s : State) : (s.advanceDraws n).drop = s.drop := rfl
@[simp] theorem advanceDraws_err (n : Nat) (s : State) : (s.advanceDraws n).err = s.err := rfl
@[simp] theorem advanceDraws_errData (n : Nat) (s : State) : (s.advanceDraws n).errData = s.errData := rfl
@[simp] theorem advanceDraws_inLen (n : Nat) (s : State) : (s.advanceDraws n).inLen = s.inLen := rfl
@[simp] theorem advanceDraws_outLen (n : Nat) (s : State) : (s.advanceDraws n).outLen = s.outLen := rfl
@[simp] theorem advanceDraws_errPos (n : Nat) (s : State) : (s.advanceDraws n).errPos = s.errPos := rfl
@[simp] theorem advanceDraws_opL (n : Nat) (s : State) : (s.advanceDraws n).opL = s.opL := rfl
@[simp] theorem advanceDraws_resp (n : Nat) (s : State) : (s.advanceDraws n).resp = s.resp := rfl
@[simp] theorem advanceDraws_events (n : Nat) (s : State) : (s.advanceDraws n).events = s.events := rfl
@[simp] theorem advanceDraws_draws (n : Nat) (s : State) : (s.advanceDraws n).draws = s.draws + n := rfl
@[simp] theorem advanceDraws_powerOns (n : Nat) (s : State) : (s.advanceDraws n).powerOns = s.powerOns := rfl

/-! ## drawOut -/

@[simp] theorem drawOut_inCap (n : Nat) (s : State) : (s.drawOut n).inCap = s.inCap := rfl
@[simp] theorem drawOut_inBuf (n : Nat) (s : State) : (s.drawOut n).inBuf = s.inBuf := rfl
@[simp] theorem drawOut_outBuf (n : Nat) (s : State) : (s.drawOut n).outBuf = Memory.writeFrom 0 (s.nextDraws n) s.outBuf := rfl
@[simp] theorem drawOut_state (n : Nat) (s : State) : (s.drawOut n).state = s.state := rfl
@[simp] theorem drawOut_drop (n : Nat) (s : State) : (s.drawOut n).drop = s.drop := rfl
@[simp] theorem drawOut_err (n : Nat) (s : State) : (s.drawOut n).err = s.err := rfl
@[simp] theorem drawOut_errData (n : Nat) (s : State) : (s.drawOut n).errData = s.errData := rfl
@[simp] theorem drawOut_inLen (n : Nat) (s : State) : (s.drawOut n).inLen = s.inLen := rfl
@[simp] theorem drawOut_outLen (n : Nat) (s : State) : (s.drawOut n).outLen = s.outLen := rfl
@[simp] theorem drawOut_errPos (n : Nat) (s : State) : (s.drawOut n).errPos = s.errPos := rfl
@[simp] theorem drawOut_opL (n : Nat) (s : State) : (s.drawOut n).opL = s.opL := rfl
@[simp] theorem drawOut_resp (n : Nat) (s : State) : (s.drawOut n).resp = s.resp := rfl
@[simp] theorem drawOut_events (n : Nat) (s : State) : (s.drawOut n).events = s.events := rfl
@[simp] theorem drawOut_draws (n : Nat) (s : State) : (s.drawOut n).draws = s.draws + n := rfl
@[simp] theorem drawOut_powerOns (n : Nat) (s : State) : (s.drawOut n).powerOns = s.powerOns := rfl

/-! ## enterError -/

@[simp] theorem enterError_inCap (e : ErrCode) (p : Nat) (d : Byte) (s : State) : (enterError e p d s).inCap = s.inCap := rfl
@[simp] theorem enterError_inBuf (e : ErrCode) (p : Nat) (d : Byte) (s : State) : (enterError e p d s).inBuf = s.inBuf := rfl
@[simp] theorem enterError_outBuf (e : ErrCode) (p : Nat) (d : Byte) (s : State) : (enterError e p d s).outBuf = s.outBuf := rfl
@[simp] theorem enterError_state (e : ErrCode) (p : Nat) (d : Byte) (s : State) : (enterError e p d s).state = .error := rfl
@[simp] theorem enterError_drop (e : ErrCode) (p : Nat) (d : Byte) (s : State) : (enterError e p d s).drop = s.drop := rfl
@[simp] theorem enterError_err (e : ErrCode) (p : Nat) (d : Byte) (s : State) : (enterError e p d s).err = e := rfl
@[simp] theorem enterError_errData (e : ErrCode) (p : Nat) (d : Byte) (s : State) : (enterError e p d s).errData = d := rfl
@[simp] theorem enterError_inLen (e : ErrCode) (p : Nat) (d : Byte) (s : State) : (enterError e p d s).inLen = s.inLen := rfl
@[simp] theorem enterError_outLen (e : ErrCode) (p : Nat) (d : Byte) (s : State) : (enterError e p d s).outLen = s.outLen := rfl
@[simp] theorem enterError_errPos (e : ErrCode) (p : Nat) (d : Byte) (s : State) : (enterError e p d s).errPos = BitVec.ofNat 32 p := rfl
@[simp] theorem enterError_opL (e : ErrCode) (p : Nat) (d : Byte) (s : State) : (enterError e p d s).opL = s.opL := rfl
@[simp] theorem enterError_resp (e : ErrCode) (p : Nat) (d : Byte) (s : State) : (enterError e p d s).resp = s.resp := rfl
@[simp] theorem enterError_events (e : ErrCode) (p : Nat) (d : Byte) (s : State) : (enterError e p d s).events = s.events := rfl
@[simp] theorem enterError_draws (e : ErrCode) (p : Nat) (d : Byte) (s : State) : (enterError e p d s).draws = s.draws := rfl
@[simp] theorem enterError_powerOns (e : ErrCode) (p : Nat) (d : Byte) (s : State) : (enterError e p d s).powerOns = s.powerOns := rfl

/-! ## clearRecord -/

@[simp] theorem clearRecord_inCap (s : State) : (clearRecord s).inCap = s.inCap := rfl
@[simp] theorem clearRecord_inBuf (s : State) : (clearRecord s).inBuf = s.inBuf := rfl
@[simp] theorem clearRecord_outBuf (s : State) : (clearRecord s).outBuf = s.outBuf := rfl
@[simp] theorem clearRecord_state (s : State) : (clearRecord s).state = s.state := rfl
@[simp] theorem clearRecord_drop (s : State) : (clearRecord s).drop = s.drop := rfl
@[simp] theorem clearRecord_err (s : State) : (clearRecord s).err = .none := rfl
@[simp] theorem clearRecord_errData (s : State) : (clearRecord s).errData = 0#8 := rfl
@[simp] theorem clearRecord_inLen (s : State) : (clearRecord s).inLen = s.inLen := rfl
@[simp] theorem clearRecord_outLen (s : State) : (clearRecord s).outLen = 0#32 := rfl
@[simp] theorem clearRecord_errPos (s : State) : (clearRecord s).errPos = 0#32 := rfl
@[simp] theorem clearRecord_opL (s : State) : (clearRecord s).opL = s.opL := rfl
@[simp] theorem clearRecord_resp (s : State) : (clearRecord s).resp = s.resp := rfl
@[simp] theorem clearRecord_events (s : State) : (clearRecord s).events = s.events := rfl
@[simp] theorem clearRecord_draws (s : State) : (clearRecord s).draws = s.draws := rfl
@[simp] theorem clearRecord_powerOns (s : State) : (clearRecord s).powerOns = s.powerOns := rfl

/-! ## setDrop -/

@[simp] theorem setDrop_inCap (s : State) : (setDrop s).inCap = s.inCap := rfl
@[simp] theorem setDrop_inBuf (s : State) : (setDrop s).inBuf = s.inBuf := rfl
@[simp] theorem setDrop_outBuf (s : State) : (setDrop s).outBuf = s.outBuf := rfl
@[simp] theorem setDrop_state (s : State) : (setDrop s).state = s.state := rfl
@[simp] theorem setDrop_drop (s : State) : (setDrop s).drop = true := rfl
@[simp] theorem setDrop_err (s : State) : (setDrop s).err = s.err := rfl
@[simp] theorem setDrop_errData (s : State) : (setDrop s).errData = s.errData := rfl
@[simp] theorem setDrop_inLen (s : State) : (setDrop s).inLen = s.inLen := rfl
@[simp] theorem setDrop_outLen (s : State) : (setDrop s).outLen = s.outLen := rfl
@[simp] theorem setDrop_errPos (s : State) : (setDrop s).errPos = s.errPos := rfl
@[simp] theorem setDrop_opL (s : State) : (setDrop s).opL = s.opL := rfl
@[simp] theorem setDrop_resp (s : State) : (setDrop s).resp = s.resp := rfl
@[simp] theorem setDrop_events (s : State) : (setDrop s).events = s.events := rfl
@[simp] theorem setDrop_draws (s : State) : (setDrop s).draws = s.draws := rfl
@[simp] theorem setDrop_powerOns (s : State) : (setDrop s).powerOns = s.powerOns := rfl

/-! ## commitOk -/

@[simp] theorem commitOk_inCap (y : List Byte) (s : State) : (commitOk y s).inCap = s.inCap := rfl
@[simp] theorem commitOk_inBuf (y : List Byte) (s : State) : (commitOk y s).inBuf = s.inBuf := rfl
@[simp] theorem commitOk_outBuf (y : List Byte) (s : State) : (commitOk y s).outBuf = Memory.writeFrom 0 y s.outBuf := rfl
@[simp] theorem commitOk_state (y : List Byte) (s : State) : (commitOk y s).state = .done := rfl
@[simp] theorem commitOk_drop (y : List Byte) (s : State) : (commitOk y s).drop = s.drop := rfl
@[simp] theorem commitOk_err (y : List Byte) (s : State) : (commitOk y s).err = s.err := rfl
@[simp] theorem commitOk_errData (y : List Byte) (s : State) : (commitOk y s).errData = s.errData := rfl
@[simp] theorem commitOk_inLen (y : List Byte) (s : State) : (commitOk y s).inLen = s.inLen := rfl
@[simp] theorem commitOk_outLen (y : List Byte) (s : State) : (commitOk y s).outLen = BitVec.ofNat 32 y.length := rfl
@[simp] theorem commitOk_errPos (y : List Byte) (s : State) : (commitOk y s).errPos = s.errPos := rfl
@[simp] theorem commitOk_opL (y : List Byte) (s : State) : (commitOk y s).opL = s.opL := rfl
@[simp] theorem commitOk_resp (y : List Byte) (s : State) : (commitOk y s).resp = s.resp := rfl
@[simp] theorem commitOk_events (y : List Byte) (s : State) : (commitOk y s).events = s.events := rfl
@[simp] theorem commitOk_draws (y : List Byte) (s : State) : (commitOk y s).draws = s.draws := rfl
@[simp] theorem commitOk_powerOns (y : List Byte) (s : State) : (commitOk y s).powerOns = s.powerOns := rfl

/-! ## commitErr -/

@[simp] theorem commitErr_inCap (e : ErrCode) (p : Nat) (d : Byte) (s : State) : (commitErr e p d s).inCap = s.inCap := rfl
@[simp] theorem commitErr_inBuf (e : ErrCode) (p : Nat) (d : Byte) (s : State) : (commitErr e p d s).inBuf = s.inBuf := rfl
@[simp] theorem commitErr_outBuf (e : ErrCode) (p : Nat) (d : Byte) (s : State) : (commitErr e p d s).outBuf = Memory.writeFrom 0 (s.nextDraws p) s.outBuf := rfl
@[simp] theorem commitErr_state (e : ErrCode) (p : Nat) (d : Byte) (s : State) : (commitErr e p d s).state = .error := rfl
@[simp] theorem commitErr_drop (e : ErrCode) (p : Nat) (d : Byte) (s : State) : (commitErr e p d s).drop = s.drop := rfl
@[simp] theorem commitErr_err (e : ErrCode) (p : Nat) (d : Byte) (s : State) : (commitErr e p d s).err = e := rfl
@[simp] theorem commitErr_errData (e : ErrCode) (p : Nat) (d : Byte) (s : State) : (commitErr e p d s).errData = d := rfl
@[simp] theorem commitErr_inLen (e : ErrCode) (p : Nat) (d : Byte) (s : State) : (commitErr e p d s).inLen = s.inLen := rfl
@[simp] theorem commitErr_outLen (e : ErrCode) (p : Nat) (d : Byte) (s : State) : (commitErr e p d s).outLen = 0#32 := rfl
@[simp] theorem commitErr_errPos (e : ErrCode) (p : Nat) (d : Byte) (s : State) : (commitErr e p d s).errPos = BitVec.ofNat 32 p := rfl
@[simp] theorem commitErr_opL (e : ErrCode) (p : Nat) (d : Byte) (s : State) : (commitErr e p d s).opL = s.opL := rfl
@[simp] theorem commitErr_resp (e : ErrCode) (p : Nat) (d : Byte) (s : State) : (commitErr e p d s).resp = s.resp := rfl
@[simp] theorem commitErr_events (e : ErrCode) (p : Nat) (d : Byte) (s : State) : (commitErr e p d s).events = s.events := rfl
@[simp] theorem commitErr_draws (e : ErrCode) (p : Nat) (d : Byte) (s : State) : (commitErr e p d s).draws = s.draws + p := rfl
@[simp] theorem commitErr_powerOns (e : ErrCode) (p : Nat) (d : Byte) (s : State) : (commitErr e p d s).powerOns = s.powerOns := rfl

/-! ## resetRegisters -/

@[simp] theorem resetRegisters_inCap (s : State) : (resetRegisters s).inCap = s.inCap := rfl
@[simp] theorem resetRegisters_inBuf (s : State) : (resetRegisters s).inBuf = s.inBuf := rfl
@[simp] theorem resetRegisters_outBuf (s : State) : (resetRegisters s).outBuf = s.outBuf := rfl
@[simp] theorem resetRegisters_state (s : State) : (resetRegisters s).state = .idle := rfl
@[simp] theorem resetRegisters_drop (s : State) : (resetRegisters s).drop = false := rfl
@[simp] theorem resetRegisters_err (s : State) : (resetRegisters s).err = .none := rfl
@[simp] theorem resetRegisters_errData (s : State) : (resetRegisters s).errData = 0#8 := rfl
@[simp] theorem resetRegisters_inLen (s : State) : (resetRegisters s).inLen = 0#32 := rfl
@[simp] theorem resetRegisters_outLen (s : State) : (resetRegisters s).outLen = 0#32 := rfl
@[simp] theorem resetRegisters_errPos (s : State) : (resetRegisters s).errPos = 0#32 := rfl
@[simp] theorem resetRegisters_opL (s : State) : (resetRegisters s).opL = Config.drawOp s.draws := rfl
@[simp] theorem resetRegisters_resp (s : State) : (resetRegisters s).resp = s.resp := rfl
@[simp] theorem resetRegisters_events (s : State) : (resetRegisters s).events = s.events := rfl
@[simp] theorem resetRegisters_draws (s : State) : (resetRegisters s).draws = s.draws + 1 := rfl
@[simp] theorem resetRegisters_powerOns (s : State) : (resetRegisters s).powerOns = s.powerOns := rfl

end Sys2Proof.Machine
end

