-- ==== Sys2Proof/Laws/Memory.lean ====
section
/-! SUPPORT. The laws of a buffer's contents: a read after a write, what a write leaves alone, and that every memory
operation keeps the canonical form and stays inside the buffer. -/

namespace Sys2Proof.Machine

/-! ## Reading after writing -/

theorem lookup_write (a b : Nat) (v : Byte) (m : Memory) :
    Memory.lookup b (Memory.write a v m) = if b = a then some v else Memory.lookup b m := by
  induction m with
  | nil => simp [Memory.write, Memory.lookup]
  | cons c m ih =>
    obtain ⟨d, u⟩ := c
    simp only [Memory.write]
    split
    · simp only [Memory.lookup]
    · split
      · subst d
        simp only [Memory.lookup]
        split <;> rfl
      · simp only [Memory.lookup, ih]
        split <;> rename_i h
        · subst h
          rw [if_neg (Ne.symm ‹_›)]
        · rfl

@[simp] theorem lookup_write_self (a : Nat) (v : Byte) (m : Memory) :
    Memory.lookup a (Memory.write a v m) = some v := by
  simp [lookup_write]

theorem lookup_write_other {a b : Nat} (h : b ≠ a) (v : Byte) (m : Memory) :
    Memory.lookup b (Memory.write a v m) = Memory.lookup b m := by
  simp [lookup_write, h]

/-- `writeFrom a bs` writes exactly the indices from `a` to `a + len(bs) - 1`. -/
theorem lookup_writeFrom (bs : List Byte) (a b : Nat) (m : Memory) :
    Memory.lookup b (Memory.writeFrom a bs m) =
      if a ≤ b ∧ b < a + bs.length then some (bs.getD (b - a) 0#8) else Memory.lookup b m := by
  induction bs generalizing a m with
  | nil =>
    have : ¬ (a ≤ b ∧ b < a) := by omega
    simp [Memory.writeFrom, this]
  | cons v bs ih =>
    simp only [Memory.writeFrom, ih, lookup_write, List.length_cons]
    by_cases hab : b = a
    · subst hab
      simp
    · by_cases hlt : a < b
      · obtain ⟨k, rfl⟩ : ∃ k, b = a + 1 + k := ⟨b - a - 1, by omega⟩
        have e : a + 1 + k - a = k + 1 := by omega
        have hk : a + 1 ≤ a + 1 + k ∧ a + 1 + k < a + 1 + bs.length ↔
            a ≤ a + 1 + k ∧ a + 1 + k < a + (bs.length + 1) := by omega
        simp only [hab, hk, e, if_false, Nat.add_sub_cancel_left, List.getD_cons_succ]
      · have h1 : ¬ (a + 1 ≤ b ∧ b < a + 1 + bs.length) := by omega
        have h2 : ¬ (a ≤ b ∧ b < a + (bs.length + 1)) := by omega
        simp only [hab, h1, h2, if_false]

/-! ## The canonical form -/

theorem wf_cons_iff (c : Host.Cell) (m : Memory) :
    Memory.wf (c :: m) = true ↔ (∀ d ∈ m.head?, c.1 < d.1) ∧ Memory.wf m = true := by
  cases m with
  | nil => simp [Memory.wf]
  | cons d m => simp [Memory.wf]

theorem head_write (a : Nat) (v : Byte) (m : Memory) (d : Host.Cell) (h : d ∈ (Memory.write a v m).head?) :
    d.1 = a ∨ d ∈ m.head? := by
  cases m with
  | nil => simp [Memory.write] at h; simp [← h]
  | cons c m =>
    simp only [Memory.write] at h
    split at h
    · simp at h; simp [← h]
    · split at h <;> simp at h <;> simp [← h]

/-- A write keeps the canonical form. -/
theorem wf_write (a : Nat) (v : Byte) (m : Memory) (h : Memory.wf m = true) : Memory.wf (Memory.write a v m) = true := by
  induction m with
  | nil => rfl
  | cons c m ih =>
    rw [wf_cons_iff] at h
    simp only [Memory.write]
    split
    · rw [wf_cons_iff, wf_cons_iff]
      exact ⟨by simpa, h⟩
    · split
      · subst a
        exact (wf_cons_iff _ _).2 h
      · refine (wf_cons_iff _ _).2 ⟨fun d hd => ?_, ih h.2⟩
        rcases head_write _ _ _ _ hd with hd | hd
        · simp only; omega
        · exact h.1 d hd

theorem wf_writeFrom (bs : List Byte) (a : Nat) (m : Memory) (h : Memory.wf m = true) :
    Memory.wf (Memory.writeFrom a bs m) = true := by
  induction bs generalizing a m with
  | nil => exact h
  | cons v bs ih => exact ih _ _ (wf_write _ _ _ h)

/-- A write inside the buffer keeps the contents inside it. -/
theorem within_write (cap a : Nat) (v : Byte) (m : Memory) (ha : a < cap) (h : Memory.within cap m = true) :
    Memory.within cap (Memory.write a v m) = true := by
  induction m with
  | nil => simpa [Memory.write, Memory.within]
  | cons c m ih =>
    simp only [Memory.within, List.all_cons, Bool.and_eq_true, decide_eq_true_eq] at h ih ⊢
    simp only [Memory.write]
    split
    · simp [ha, h.1, h.2]
    · split
      · simp [ha, h.2]
      · simp [h.1, ih h.2]

theorem within_writeFrom (cap : Nat) (bs : List Byte) (a : Nat) (m : Memory) (ha : a + bs.length ≤ cap)
    (h : Memory.within cap m = true) : Memory.within cap (Memory.writeFrom a bs m) = true := by
  induction bs generalizing a m with
  | nil => exact h
  | cons v bs ih =>
    simp only [List.length_cons] at ha
    exact ih _ _ (by omega) (within_write _ _ _ _ (by omega) h)

/-- No index below the first listed one is written. -/
theorem lookup_of_lt_head (m : Memory) (h : Memory.wf m = true) (a : Nat) (ha : ∀ d ∈ m.head?, a < d.1) :
    Memory.lookup a m = none := by
  induction m with
  | nil => rfl
  | cons c m ih =>
    rw [wf_cons_iff] at h
    have hc : a < c.1 := ha c (by simp)
    have : ¬ a = c.1 := by omega
    simp only [Memory.lookup, this, if_false]
    exact ih h.2 fun d hd => lt_trans hc (h.1 d hd)

/-- Canonical contents that read alike are equal data. -/
theorem memory_ext (m m' : Memory) (h : Memory.wf m = true) (h' : Memory.wf m' = true)
    (heq : ∀ a, Memory.lookup a m = Memory.lookup a m') : m = m' := by
  induction m generalizing m' with
  | nil =>
    cases m' with
    | nil => rfl
    | cons c m' => simpa [Memory.lookup] using heq c.1
  | cons c m ih =>
    cases m' with
    | nil => simpa [Memory.lookup] using heq c.1
    | cons c' m' =>
      have h1 := (wf_cons_iff _ _).1 h
      have h1' := (wf_cons_iff _ _).1 h'
      have hc : c.1 = c'.1 := by
        rcases lt_trichotomy c.1 c'.1 with hlt | heq' | hlt
        · have := heq c.1
          rw [lookup_of_lt_head (c' :: m') h' c.1 (by simpa)] at this
          simp [Memory.lookup] at this
        · exact heq'
        · have := heq c'.1
          rw [lookup_of_lt_head (c :: m) h c'.1 (by simpa)] at this
          simp [Memory.lookup] at this
      have hv : c.2 = c'.2 := by simpa [Memory.lookup, hc] using heq c.1
      obtain rfl : c = c' := Prod.ext hc hv
      congr 1
      refine ih m' h1.2 h1'.2 fun a => ?_
      have ha := heq a
      by_cases hac : a = c.1
      · subst hac
        rw [lookup_of_lt_head m h1.2 c.1 h1.1, lookup_of_lt_head m' h1'.2 c.1 h1'.1]
      · simpa [Memory.lookup, hac] using ha

end Sys2Proof.Machine
end

