-- ==== Sys2Proof/Laws/Ops.lean ====
section
/-! SUPPORT. What the shared operations over buffers do to single bytes, and the forms PERFORM, `exec`, `issue` and `step`
answer in. -/

namespace Sys2Proof.Machine

/-! ## Bytes of the buffers -/

theorem inByte_writeIn (a b : Nat) (v : Byte) (s : State) :
    (s.writeIn a v).inByte b = if b = a then v else s.inByte b := by
  simp only [State.inByte, writeIn_inBuf, writeIn_powerOns, lookup_write]
  split <;> rfl

theorem outByte_writeOut (bs : List Byte) (a : Nat) (s : State) :
    (s.writeOut bs).outByte a = if a < bs.length then byteAt bs a else s.outByte a := by
  simp only [State.outByte, writeOut_outBuf, writeOut_powerOns, lookup_writeFrom, Nat.zero_le, true_and, Nat.zero_add,
    Nat.sub_zero, byteAt]
  split <;> rfl

theorem outByte_commitOk (y : List Byte) (a : Nat) (s : State) :
    (commitOk y s).outByte a = if a < y.length then byteAt y a else s.outByte a :=
  outByte_writeOut y a s

@[simp] theorem length_nextDraws (n : Nat) (s : State) : (s.nextDraws n).length = n := by
  simp [State.nextDraws]

/-- Draws reach only the bytes below `n`. -/
theorem outByte_drawOut_of_le {n a : Nat} (h : n ≤ a) (s : State) : (s.drawOut n).outByte a = s.outByte a := by
  have := outByte_writeOut (s.nextDraws n) a s
  rw [length_nextDraws, if_neg (by omega)] at this
  exact this

theorem outByte_commitErr_of_le {p a : Nat} (h : p ≤ a) (e : ErrCode) (d : Byte) (s : State) :
    (commitErr e p d s).outByte a = s.outByte a :=
  outByte_drawOut_of_le h s

@[simp] theorem length_input (s : State) : s.input.length = s.inLen.toNat := by
  simp [State.input]

@[simp] theorem length_output (s : State) : s.output.length = s.outLen.toNat := by
  simp [State.output]

/-- The input bytes by index. -/
theorem byteAt_input (s : State) (i : Nat) (h : i < s.inLen.toNat) : byteAt s.input i = s.inByte i := by
  simp [byteAt, State.input, List.getD, h]

/-- After a commit that fits OUT_LEN, the output is the result. -/
theorem output_commitOk (y : List Byte) (s : State) (h : y.length < 2 ^ 32) : (commitOk y s).output = y := by
  have hl : (commitOk y s).outLen.toNat = y.length := by
    simp only [commitOk_outLen, BitVec.toNat_ofNat]
    exact Nat.mod_eq_of_lt h
  refine List.ext_getElem (by simp only [length_output, hl]) fun i h1 h2 => ?_
  simp only [State.output, List.getElem_map, List.getElem_range, outByte_commitOk, h2, if_true, byteAt, List.getD,
    List.getElem?_eq_getElem h2, Option.getD_some]

/-! ## Which fields the buffers' bytes depend on -/

theorem inByte_congr {s t : State} (h : t.inBuf = s.inBuf) (hp : t.powerOns = s.powerOns) : t.inByte = s.inByte := by
  funext a
  simp [State.inByte, h, hp]

theorem outByte_congr {s t : State} (h : t.outBuf = s.outBuf) (hp : t.powerOns = s.powerOns) : t.outByte = s.outByte := by
  funext a
  simp [State.outByte, h, hp]

theorem input_congr {s t : State} (hl : t.inLen = s.inLen) (h : t.inBuf = s.inBuf) (hp : t.powerOns = s.powerOns) :
    t.input = s.input := by
  simp [State.input, hl, inByte_congr h hp]

theorem output_congr {s t : State} (hl : t.outLen = s.outLen) (h : t.outBuf = s.outBuf) (hp : t.powerOns = s.powerOns) :
    t.output = s.output := by
  simp [State.output, hl, outByte_congr h hp]

/-! ## PERFORM -/

theorem performWith_busy {s : State} (h : s.state = .busy) (f : List Byte → CodecResult) :
    performWith f s = .next (commit (f s.input) s) := by
  simp [performWith, h]

theorem performWith_not_busy {s : State} (h : s.state ≠ .busy) (f : List Byte → CodecResult) :
    performWith f s = .next s := by
  simp [performWith, h]

/-- The codec function each command performs. -/
def codecOf : Instr → List Byte → CodecResult
  | .pack => fun x => .ok (pack x)
  | .unpack => fun x => .ok (unpack x)
  | .escape => fun x => .ok (escape x)
  | .unescape => unescape

/-- Every command is PERFORM around its codec function. -/
theorem exec_eq_performWith (i : Instr) (s : State) : exec i s = performWith (codecOf i) s := by
  cases i <;> rfl

/-- All that executing a command can answer: the commit of its result while busy, the same state otherwise. -/
theorem exec_cases {i : Instr} {s t : State} (h : exec i s = .next t) :
    (s.state = .busy ∧ t = commit (codecOf i s.input) s) ∨ (s.state ≠ .busy ∧ t = s) := by
  rw [exec_eq_performWith] at h
  by_cases hb : s.state = .busy
  · rw [performWith_busy hb] at h
    exact .inl ⟨hb, by injection h with h; exact h.symm⟩
  · rw [performWith_not_busy hb] at h
    exact .inr ⟨hb, by injection h with h; exact h.symm⟩

/-! ## One step -/

/-- All that one step can answer: what its event does to the state without that event, or a PERFORM where none is left. -/
theorem step_cases {s t : State} (h : step s = .next t) :
    (s.events = [] ∧ exec s.opL s = .next t) ∨
    ∃ e rest, s.events = e :: rest ∧ applyEvent e { s with events := rest } = .next t := by
  unfold step at h
  split at h
  · exact .inl ⟨‹_›, h⟩
  · exact .inr ⟨_, _, ‹_›, h⟩

theorem applyEvent_cases {e : Event} {s t : State} (h : applyEvent e s = .next t) :
    (∃ x, e = .host x ∧ t = transact x s) ∨ (e = .perform ∧ exec s.opL s = .next t) ∨ (e = .powerOn ∧ t = powerOn s) := by
  cases e with
  | host x => exact .inl ⟨x, rfl, by injection h with h; exact h.symm⟩
  | perform => exact .inr (.inl ⟨rfl, h⟩)
  | powerOn => exact .inr (.inr ⟨rfl, by injection h with h; exact h.symm⟩)

/-! ## The issue -/

/-- All that an issue can do (R103, R104). -/
theorem issue_cases (w : Word) (s : State) :
    ((∃ r, decode w = .error r) ∧ issue w s = enterError .illegalCmd 0 0#8 (clearRecord s)) ∨
    (∃ i, decode w = .ok i ∧ s.inCap < s.inLen.toNat ∧ issue w s = enterError .badLength 0 0#8 (clearRecord s)) ∨
    ∃ i, decode w = .ok i ∧ s.inLen.toNat ≤ s.inCap ∧ issue w s = { clearRecord s with opL := i, state := .busy } := by
  unfold issue
  split
  · exact .inl ⟨⟨_, ‹_›⟩, rfl⟩
  · split
    · exact .inr (.inl ⟨_, ‹_›, ‹_›, rfl⟩)
    · exact .inr (.inr ⟨_, ‹_›, by omega, rfl⟩)

end Sys2Proof.Machine
end

