-- ==== Sys2Proof/Laws/BitPacker.lean ====
section
/-! SUPPORT. The bit cursor and the loop of R134 and R137: what one bit write does, where a cursor stands, and which bits the
loop writes. -/

namespace Sys2Proof.Machine

/-! ## One bit -/

theorem getLsbD_setBit (v : Byte) (k : Nat) (b : Bool) (i : Nat) (hk : k < 8) :
    (setBit v k b).getLsbD i = if i = k then b else v.getLsbD i := by
  have hall : ∀ k i : Fin 8, (BitVec.twoPow 8 k.val).getLsbD i.val = decide (i = k) := by decide
  by_cases hi : i < 8
  · have := hall ⟨k, hk⟩ ⟨i, hi⟩
    simp only [Fin.mk.injEq] at this
    unfold setBit
    cases b <;> by_cases h : i = k <;>
      simp only [h, if_true, if_false, BitVec.getLsbD_or, BitVec.getLsbD_and, BitVec.getLsbD_not, decide_true,
        decide_false, Bool.false_eq_true] at this ⊢ <;> simp [this, hi, h]
  · have : i ≠ k := by omega
    simp [this, BitVec.getLsbD_of_ge _ i (Nat.le_of_not_lt hi)]

@[simp] theorem length_putBit (y : List Byte) (c : Cursor) (b : Bool) : (putBit y c b).length = y.length := by
  simp [putBit]

theorem byteAt_putBit (y : List Byte) (c : Cursor) (b : Bool) (j : Nat) (hj : j < y.length) :
    byteAt (putBit y c b) j = if j = c.1 then setBit (byteAt y j) c.2 b else byteAt y j := by
  simp only [byteAt, putBit, List.getD, List.length_modify, hj, getElem?_pos, Option.getD_some]
  by_cases h : j = c.1
  · simp [h]
  · rw [if_neg h, List.getElem_modify, if_neg (Ne.symm h)]

/-! ## Where a cursor stands -/

/-- The cursor at stream position `p` over symbols whose top bit position is `top`. -/
def cursorAt (top p : Nat) : Cursor := (p / (top + 1), top - p % (top + 1))

theorem cursorAt_zero (top : Nat) : cursorAt top 0 = (0, top) := by
  simp [cursorAt]

theorem cursorAt_mul_add (top q r : Nat) (hr : r < top + 1) : cursorAt top ((top + 1) * q + r) = (q, top - r) := by
  unfold cursorAt
  rw [Nat.mul_add_div (by omega), Nat.div_eq_of_lt hr, Nat.mul_add_mod, Nat.mod_eq_of_lt hr]
  rfl

/-- One advance moves the cursor by one stream position (R131). -/
theorem adv_cursorAt (top p : Nat) : adv (cursorAt top p) top = cursorAt top (p + 1) := by
  obtain ⟨q, r, hr, rfl⟩ : ∃ q r, r < top + 1 ∧ p = (top + 1) * q + r :=
    ⟨p / (top + 1), p % (top + 1), Nat.mod_lt _ (by omega), (Nat.div_add_mod ..).symm⟩
  rw [cursorAt_mul_add _ _ _ hr]
  by_cases h : r = top
  · have e : (top + 1) * q + r + 1 = (top + 1) * (q + 1) + 0 := by rw [Nat.mul_add]; omega
    rw [e, cursorAt_mul_add _ _ _ (by omega)]
    simp [adv, h]
  · rw [Nat.add_assoc, cursorAt_mul_add _ _ _ (by omega), adv, if_neg (by simp only; omega)]
    exact Prod.ext rfl (by simp only; omega)

theorem bitAt_cursorAt_seven (x : List Byte) (k : Nat) : bitAt x (cursorAt 7 k) = bitStream (byteAt x) k := rfl

theorem bitAt_cursorAt_six (x : List Byte) (k : Nat) : bitAt x (cursorAt 6 k) = sevenBitStream (byteAt x) k := rfl

/-! ## The loop -/

@[simp] theorem length_copyBits (x : List Byte) (r w k : Nat) (rc wc : Cursor) (y : List Byte) :
    (copyBits x r w k rc wc y).length = y.length := by
  induction k generalizing rc wc y with
  | zero => rfl
  | succ k ih => rw [copyBits, ih, length_putBit]

theorem byteAt_zeros (m j : Nat) : byteAt (zeros m) j = 0#8 := by
  simp [byteAt, zeros, List.getD, List.getElem?_replicate]
  split <;> rfl

/-- Everything the loop does from stream position `p` on: bit `b` of byte `j` is the bit of the input at the same stream
position where the loop reaches that position, and is unchanged elsewhere. -/
theorem copyBits_bit (x : List Byte) (r w : Nat) (hw : w < 8) (k p : Nat) (y : List Byte) (j b : Nat)
    (hj : j < y.length) :
    (byteAt (copyBits x r w k (cursorAt r p) (cursorAt w p) y) j).getLsbD b =
      if b ≤ w ∧ p ≤ j * (w + 1) + (w - b) ∧ j * (w + 1) + (w - b) < p + k
      then bitAt x (cursorAt r (j * (w + 1) + (w - b))) else (byteAt y j).getLsbD b := by
  induction k generalizing p y with
  | zero =>
    rw [copyBits, if_neg (by omega)]
  | succ k ih =>
    have hc8 : (cursorAt w p).2 < 8 := by simp only [cursorAt]; omega
    rw [copyBits, adv_cursorAt, adv_cursorAt, ih _ _ (by rw [length_putBit]; exact hj), byteAt_putBit _ _ _ _ hj]
    by_cases hb : b ≤ w
    · by_cases hp : p = j * (w + 1) + (w - b)
      · have e1 : cursorAt w p = (j, b) := by
          rw [hp, Nat.mul_comm, cursorAt_mul_add _ _ _ (by omega)]
          exact Prod.ext rfl (by simp only; omega)
        rw [e1]
        simp only [getLsbD_setBit _ b _ _ (by omega : b < 8), if_true, hb, true_and]
        rw [if_neg (by omega), if_pos (by omega), ← hp]
      · by_cases hc : p + 1 ≤ j * (w + 1) + (w - b) ∧ j * (w + 1) + (w - b) < p + 1 + k
        · rw [if_pos ⟨hb, hc⟩, if_pos ⟨hb, by omega, by omega⟩]
        · rw [if_neg (by tauto), if_neg (c := b ≤ w ∧ p ≤ _ ∧ _) (by rintro ⟨_, h1, h2⟩; exact hc ⟨by omega, by omega⟩)]
          split
          · rename_i hjc
            rw [getLsbD_setBit _ _ _ _ hc8, if_neg]
            intro hbc
            apply hp
            simp only [cursorAt] at hjc hbc
            have hm := Nat.mod_lt p (Nat.succ_pos w)
            have hd := Nat.div_add_mod p (w + 1)
            rw [← hjc, Nat.mul_comm] at hd
            simp only [Nat.succ_eq_add_one] at hm
            omega
          · rfl
    · simp only [hb, false_and, if_false]
      split
      · rw [getLsbD_setBit _ _ _ _ hc8, if_neg (by simp only [cursorAt]; omega)]
      · rfl

/-- Two buffers of the same length with the same bits are equal. -/
theorem buffer_ext {x y : List Byte} (hl : x.length = y.length)
    (h : ∀ j < x.length, ∀ b < 8, (byteAt x j).getLsbD b = (byteAt y j).getLsbD b) : x = y := by
  refine List.ext_getElem hl fun i h1 h2 => BitVec.eq_of_getLsbD_eq fun b hb => ?_
  simpa [byteAt, List.getD, h1, h2] using h i h1 b hb

end Sys2Proof.Machine
end

