-- ==== Sys2Proof/Laws/Escaper.lean ====
section
/-! SUPPORT. The escape table's two directions, and one step of each scan of the escape_codec. -/

namespace Sys2Proof.Machine

theorem codeOf_code (k : Reserved) : codeOf? k.code = some k := by
  cases k <;> decide

theorem reservedOf_byte (k : Reserved) : reservedOf? k.byte = some k := by
  cases k <;> decide

theorem codeOf_eq_none_iff (c : Byte) : codeOf? c = none ↔ c ≠ 0x01#8 ∧ c ≠ 0x02#8 ∧ c ≠ 0x7F#8 := by
  revert c
  decide

theorem eq_code_of_codeOf (c : Byte) (k : Reserved) : codeOf? c = some k → c = k.code := by
  revert c
  cases k <;> decide

/-! ## One step of UNESCAPE's scan (R167) -/

theorem unescapeScan_plain (v : Byte) (hv : v ≠ escMarker) (rest : List Byte) (i : Nat) (y : List Byte) :
    unescapeScan (v :: rest) i y = unescapeScan rest (i + 1) (y ++ [v]) := by
  cases rest <;> simp [unescapeScan, hv]

theorem unescapeScan_pair (k : Reserved) (rest : List Byte) (i : Nat) (y : List Byte) :
    unescapeScan (escMarker :: k.code :: rest) i y = unescapeScan rest (i + 2) (y ++ [k.byte]) := by
  simp [unescapeScan, codeOf_code]

theorem unescapeScan_truncated (i : Nat) (y : List Byte) :
    unescapeScan [escMarker] i y = .err .truncatedEscape i 0x00#8 := by
  simp [unescapeScan]

theorem unescapeScan_unknown (c : Byte) (h : codeOf? c = none) (rest : List Byte) (i : Nat) (y : List Byte) :
    unescapeScan (escMarker :: c :: rest) i y = .err .unknownEscapeCode i c := by
  simp [unescapeScan, h]

/-! ## Units -/

@[simp] theorem wireOf_nil : wireOf [] = [] := rfl

@[simp] theorem wireOf_cons (u : EscUnit) (us : List EscUnit) : wireOf (u :: us) = u.wire ++ wireOf us := rfl

theorem length_le_wireOf (us : List EscUnit) : us.length ≤ (wireOf us).length := by
  induction us with
  | nil => exact Nat.le_refl _
  | cons u us ih => cases u <;> simp [EscUnit.wire] <;> omega

end Sys2Proof.Machine
end

