-- ==== Sys2Proof/Laws/Host.lean ====
section
/-! SUPPORT. Everything a host transaction can do, said once; what `step` does with the events that come after; and runs of
transactions. -/

namespace Sys2Proof.Machine

/-- All that a REGW can do (R102 to R107). -/
theorem writeReg_cases (k : BitVec 3) (w : Word) (s : State) :
    (k = 0#3 ∧ s.state = .busy ∧ writeReg (RegName.ofIdx k) w s = setDrop s) ∨
    (k = 0#3 ∧ s.state ≠ .busy ∧ writeReg (RegName.ofIdx k) w s = issue w s) ∨
    (k = 1#3 ∧ w.getLsbD 2 = true ∧ writeReg (RegName.ofIdx k) w s = { s with drop := false }) ∨
    (k = 2#3 ∧ s.state = .busy ∧ writeReg (RegName.ofIdx k) w s = setDrop s) ∨
    (k = 2#3 ∧ s.state ≠ .busy ∧ writeReg (RegName.ofIdx k) w s = { s with inLen := w }) ∨
    writeReg (RegName.ofIdx k) w s = s := by
  have cmd : writeReg (RegName.ofIdx 0#3) w s = writeCmd w s := rfl
  have sta : writeReg (RegName.ofIdx 1#3) w s = writeStatus w s := rfl
  have len : writeReg (RegName.ofIdx 2#3) w s = writeInLen w s := rfl
  rcases regIndex_cases k with rfl | rfl | rfl | rfl | rfl | rfl | rfl | rfl
  · by_cases hb : s.state = .busy <;> simp [cmd, writeCmd, hb]
  · cases hw : w.getLsbD 2
    · exact .inr (.inr (.inr (.inr (.inr (by simp only [sta, writeStatus, hw]; rfl)))))
    · exact .inr (.inr (.inl ⟨rfl, rfl, by simp only [sta, writeStatus, hw, if_true]⟩))
  · by_cases hb : s.state = .busy <;> simp [len, writeInLen, hb]
  all_goals exact .inr (.inr (.inr (.inr (.inr rfl))))

/-- All that a host transaction can do: change only what the host sees (with the count of draws), be dropped, issue, clear DROP,
set IN_LEN, write one byte of IN_BUF, or reset. -/
theorem transact_cases (x : Transaction) (s : State) :
    (∃ r n, transact x s = { s with resp := r, draws := n }) ∨
    (s.state = .busy ∧ ((∃ w, x = .regw 0#3 w) ∨ (∃ w, x = .regw 2#3 w) ∨ ∃ a v, x = .inw a v) ∧
      transact x s = { s with drop := true, resp := .none }) ∨
    (s.state ≠ .busy ∧ ∃ w, x = .regw 0#3 w ∧ transact x s = { issue w s with resp := .none }) ∨
    (∃ w, x = .regw 1#3 w ∧ w.getLsbD 2 = true ∧ transact x s = { s with drop := false, resp := .none }) ∨
    (s.state ≠ .busy ∧ ∃ w, x = .regw 2#3 w ∧ transact x s = { s with inLen := w, resp := .none }) ∨
    (s.state ≠ .busy ∧ ∃ a v, x = .inw a v ∧ a.toNat < s.inCap ∧
      transact x s = { s with inBuf := Memory.write a.toNat v s.inBuf, resp := .none }) ∨
    (x = .reset ∧ transact x s = { resetBlock s with resp := .none }) := by
  cases x with
  | regr k => exact .inl ⟨_, s.draws, rfl⟩
  | regw k w =>
    simp only [transact, hostRegw]
    rcases writeReg_cases k w s with ⟨rfl, hb, h⟩ | ⟨rfl, hb, h⟩ | ⟨rfl, hb, h⟩ | ⟨rfl, hb, h⟩ | ⟨rfl, hb, h⟩ | h <;> rw [h]
    · exact .inr (.inl ⟨hb, .inl ⟨w, rfl⟩, rfl⟩)
    · exact .inr (.inr (.inl ⟨hb, w, rfl, rfl⟩))
    · exact .inr (.inr (.inr (.inl ⟨w, rfl, hb, rfl⟩)))
    · exact .inr (.inl ⟨hb, .inr (.inl ⟨w, rfl⟩), rfl⟩)
    · exact .inr (.inr (.inr (.inr (.inl ⟨hb, w, rfl, rfl⟩))))
    · exact .inl ⟨_, s.draws, rfl⟩
  | inr a => exact .inl ⟨_, s.draws, rfl⟩
  | inw a v =>
    simp only [transact, hostInw]
    split
    · exact .inr (.inl ⟨‹_›, .inr (.inr ⟨a, v, rfl⟩), rfl⟩)
    · split
      · exact .inr (.inr (.inr (.inr (.inr (.inl ⟨‹_›, a, v, rfl, ‹_›, rfl⟩)))))
      · exact .inl ⟨_, s.draws, rfl⟩
  | outr a =>
    simp only [transact, hostOutr]
    split
    · exact .inl ⟨_, s.draws, rfl⟩
    · split
      · exact .inl ⟨_, s.draws + 1, rfl⟩
      · exact .inl ⟨_, s.draws, rfl⟩
  | outw a v => exact .inl ⟨_, s.draws, rfl⟩
  | reset => exact .inr (.inr (.inr (.inr (.inr (.inr ⟨rfl, rfl⟩)))))

/-! ## The events that come after -/

theorem issue_events (w : Word) (s : State) (es : List Event) :
    issue w { s with events := es } = { issue w s with events := es } := by
  unfold issue
  split
  · rfl
  · split <;> rfl

theorem commit_events (i : Instr) (s : State) (es : List Event) :
    commit (codecOf i s.input) { s with events := es } = { commit (codecOf i s.input) s with events := es } := by
  cases codecOf i s.input <;> rfl

/-- A transaction neither reads nor changes the coming events. -/
theorem transact_events (x : Transaction) (s : State) (es : List Event) :
    transact x { s with events := es } = { transact x s with events := es } := by
  cases x with
  | regw k w =>
    simp only [transact, hostRegw]
    cases RegName.ofIdx k <;> simp only [writeReg, writeCmd, writeStatus, writeInLen]
    · split
      · rfl
      · rw [issue_events]
    · split <;> rfl
    · split <;> rfl
  | inw a v => simp only [transact, hostInw]; split; rfl; split <;> rfl
  | outr a => simp only [transact, hostOutr, State.outCap]; split; rfl; split <;> rfl
  | reset => simp only [transact, hostReset, resetBlock]; split <;> rfl
  | _ => rfl

/-- What one step makes of a state, whichever event comes: nothing but the events, the latched command's commit, a
transaction, or power-on. -/
theorem step_forms {s t : State} (h : step s = .next t) :
    (∃ es, t = { s with events := es }) ∨
    (s.state = .busy ∧ (s.events = [] ∨ ∃ rest, s.events = .perform :: rest) ∧
      ∃ es, t = { commit (codecOf s.opL s.input) s with events := es }) ∨
    (∃ x rest, s.events = .host x :: rest ∧ t = { transact x s with events := rest }) ∨
    ∃ rest, s.events = .powerOn :: rest ∧ t = { powerOn s with events := rest } := by
  rcases step_cases h with ⟨h0, he⟩ | ⟨e, rest, h0, ha⟩
  · rcases exec_cases he with ⟨hb, rfl⟩ | ⟨_, rfl⟩
    · exact .inr (.inl ⟨hb, .inl h0, s.events, commit_events s.opL s s.events⟩)
    · exact .inl ⟨t.events, rfl⟩
  · rcases applyEvent_cases ha with ⟨x, rfl, rfl⟩ | ⟨rfl, he⟩ | ⟨rfl, rfl⟩
    · exact .inr (.inr (.inl ⟨x, rest, h0, transact_events x s rest⟩))
    · rcases exec_cases he with ⟨hb, rfl⟩ | ⟨_, rfl⟩
      · exact .inr (.inl ⟨hb, .inr ⟨rest, h0⟩, rest, commit_events s.opL s rest⟩)
      · exact .inl ⟨rest, rfl⟩
    · exact .inr (.inr (.inr ⟨rest, h0, rfl⟩))

/-! ## Runs -/

/-- A run goes on from the state its first step answers. -/
theorem run_succ (M : Host.Core) (k : Nat) (s t : M.State) (h : M.step s = .next t) : M.run (k + 1) s = M.run k t := by
  simp [Host.Core.run, h]

@[simp] theorem transactAll_nil (s : State) : transactAll [] s = s := rfl

@[simp] theorem transactAll_cons (t : Transaction) (ts : List Transaction) (s : State) :
    transactAll (t :: ts) s = transactAll ts (transact t s) := rfl

@[simp] theorem transactAll_append (ts us : List Transaction) (s : State) :
    transactAll (ts ++ us) s = transactAll us (transactAll ts s) := by
  simp [transactAll]

end Sys2Proof.Machine
end

