-- ==== Sys2Proof/Laws/PerInstr.lean ====
section
/-! SUPPORT. Family RoundTrip: each instruction is well formed and its encoding decodes to it. -/

namespace Sys2Proof.Laws.RoundTrip

def Statement (i : Instr) : Prop := i.wf = true ∧ decode (encode i) = .ok i

theorem pack : Statement .pack := ⟨rfl, by decide⟩
theorem unpack : Statement .unpack := ⟨rfl, by decide⟩
theorem escape : Statement .escape := ⟨rfl, by decide⟩
theorem unescape : Statement .unescape := ⟨rfl, by decide⟩

end Sys2Proof.Laws.RoundTrip
end

