-- ==== Sys2Proof/Tests/Slice0.lean ====
section
/-! SUPPORT. Tests and witnesses. A test's expected result comes from 95_test_vectors.md (the row is named) or from a rule;
each is about one step or one function. A witness shows a state and operands that meet all hypotheses of a statement, one for
each clause at its boundary. -/

namespace Sys2Proof.Tests

open Sys2Proof Sys2Proof.Machine

/-- The next state of an outcome. -/
def next? (o : Host.Outcome State Fault Refusal) : Option State :=
  match o with
  | .next s => some s
  | .fault _ => none
  | .refused _ => none

/-- A block with IN_CAP = 8 whose IN_BUF starts with `bytes` and whose IN_LEN is their number. -/
def loaded (bytes : List Byte) : State :=
  { State.reset with inCap := 8, inBuf := Memory.writeFrom 0 bytes [], inLen := BitVec.ofNat 32 bytes.length }

/-- That block with command `i` in flight. -/
def busyWith (i : Instr) (bytes : List Byte) : State := { loaded bytes with state := .busy, opL := i }

/-- The output and the STATUS word after an executed command. -/
def outcome (i : Instr) (bytes : List Byte) : Option (Memory × Word × Word × Word) :=
  (next? (exec i (busyWith i bytes))).map fun t => (t.outBuf, t.outLen, t.errPos, readReg .status t)

/-! ## Well-formedness: an ill-formed term for each check -/

theorem test_wf_capacity_zero : capacityOk 0 = false := by decide
theorem test_wf_capacity_above : capacityOk (2 ^ 30 + 1) = false := by decide
theorem test_wf_capacity_bounds : capacityOk 1 = true ∧ capacityOk (2 ^ 30) = true := by decide
theorem test_wf_load_too_long : Pseudo.wf 1 (.load [1#8, 2#8]) = false := by decide
theorem test_wf_copyback_too_long : Pseudo.wf 0 (.copyback [1#8]) = false := by decide
theorem test_wf_fetch_too_far : Pseudo.wf 8 (.fetch (2 ^ 32 + 1)) = false := by decide
theorem test_wf_load_fits : Pseudo.wf 2 (.load [1#8, 2#8]) = true := by decide

/-! ## Decoding (R71 to R73: OP in bits 2..0, RSVD in bits 31..3) -/

theorem test_decode_pack : decode 0b00000000000000000000000000000_000#32 = .ok .pack := by decide
theorem test_decode_unpack : decode 0b00000000000000000000000000000_001#32 = .ok .unpack := by decide
theorem test_decode_escape : decode 0b00000000000000000000000000000_010#32 = .ok .escape := by decide
theorem test_decode_unescape : decode 0b00000000000000000000000000000_011#32 = .ok .unescape := by decide
theorem test_decode_unassigned : decode 0x00000004#32 = .error .unassignedOp ∧ decode 0x00000007#32 = .error .unassignedOp := by
  decide
theorem test_decode_reserved : decode 0x00000008#32 = .error .reservedBits ∧ decode 0x80000000#32 = .error .reservedBits := by
  decide
theorem test_encode : encode .pack = 0x00000000#32 ∧ encode .unpack = 0x00000001#32 ∧ encode .escape = 0x00000002#32 ∧
    encode .unescape = 0x00000003#32 := by decide
theorem test_table_word : decodeTableWord 32 2 = some .escape ∧ decodeTableWord 32 4 = none := by decide

/-! ## The four commands, two vectors each -/

/-- P11. -/
theorem test_pack_two_bytes : outcome .pack [0x12#8, 0x34#8] =
    some ([(0, 0x09#8), (1, 0x0D#8), (2, 0x00#8)], 3#32, 0#32, 0x00000002#32) := by decide
/-- P19: a full group, no padding. -/
theorem test_pack_group : pack [0x01#8, 0x02#8, 0x03#8, 0x04#8, 0x05#8, 0x06#8, 0x07#8] =
    [0x00#8, 0x40#8, 0x40#8, 0x30#8, 0x20#8, 0x14#8, 0x0C#8, 0x07#8] := by decide +kernel
/-- UP5: bit 7 of each byte is ignored, nonzero trailing bits too. -/
theorem test_unpack_ignores_bit_seven : outcome .unpack [0xFF#8, 0xC0#8] =
    some ([(0, 0xFF#8)], 1#32, 0#32, 0x00000002#32) := by decide
/-- UP9. -/
theorem test_unpack_arbitrary : unpack [0x01#8, 0x02#8, 0x03#8] = [0x02#8, 0x08#8] := by decide
/-- E8: all three kinds, the length doubles. -/
theorem test_escape_all_kinds : outcome .escape [0x0D#8, 0x0A#8, 0x7F#8] =
    some ([(0, 0x7F#8), (1, 0x01#8), (2, 0x7F#8), (3, 0x02#8), (4, 0x7F#8), (5, 0x7F#8)], 6#32, 0#32, 0x00000002#32) := by decide
/-- E11: the neighbours of the reserved values pass. -/
theorem test_escape_neighbours : escape [0x7E#8, 0x80#8, 0x0B#8, 0x0C#8, 0x0E#8] =
    [0x7E#8, 0x80#8, 0x0B#8, 0x0C#8, 0x0E#8] := by decide
/-- N18: only pairs. -/
theorem test_unescape_pairs : outcome .unescape [0x7F#8, 0x02#8, 0x7F#8, 0x01#8, 0x7F#8, 0x7F#8] =
    some ([(0, 0x0A#8), (1, 0x0D#8), (2, 0x7F#8)], 3#32, 0#32, 0x00000002#32) := by decide
/-- N11 and N15: the second 0x7F is a code and the third a new marker; the first error in scan order wins. -/
theorem test_unescape_errors : unescape [0x7F#8, 0x7F#8, 0x7F#8] = .err .truncatedEscape 2 0x00#8 ∧
    outcome .unescape [0x7F#8, 0x03#8, 0x7F#8] = some ([], 0#32, 0#32, 0x00000323#32) := by decide

/-! ## Host transactions (95_test_vectors.md section 6) -/

/-- T4: IN_LEN = IN_CAP + 1 is BAD_LENGTH at issue. -/
theorem test_bad_length : (next? (occur (.host (.regw 0#3 0#32)) { loaded [] with inLen := 9#32 })).map (readReg .status) =
    some 0x00000043#32 := by decide
/-- T5: IN_LEN = IN_CAP is legal. -/
theorem test_full_length : (next? (occur (.host (.regw 0#3 2#32)) { loaded [] with inLen := 8#32 })).map (readReg .status) =
    some 0x00000001#32 := by decide
/-- T7: ILLEGAL_CMD before BAD_LENGTH. -/
theorem test_illegal_first :
    (next? (occur (.host (.regw 0#3 0xFFFFFFFF#32)) { loaded [] with inLen := 9#32 })).map (readReg .status) =
    some 0x00000033#32 := by decide
/-- T8: a REGW CMD while busy only sets DROP. -/
theorem test_drop_command : (next? (occur (.host (.regw 0#3 3#32)) (busyWith .pack []))).map (fun t => (readReg .status t, t.opL)) =
    some (0x00000005#32, .pack) := by decide
/-- T11: an INW while busy is dropped, in range or not. -/
theorem test_drop_inw : (next? (occur (.host (.inw 100#32 0x41#8)) (busyWith .pack []))).map (fun t => (t.drop, t.inBuf)) =
    some (true, []) := by decide
/-- T12, T13: only bit 2 of a STATUS write clears DROP. -/
theorem test_status_write : writeStatus 0x00000004#32 { State.reset with drop := true } = State.reset ∧
    writeStatus 0x00000003#32 { State.reset with drop := true } = { State.reset with drop := true } := by decide
/-- T15: an INW at IN_CAP is ignored, without DROP. -/
theorem test_inw_out_of_range : next? (occur (.host (.inw 8#32 0x41#8)) (loaded [])) = some (loaded []) := by decide
/-- T16: OUTR at OUT_CAP returns 0x00. -/
theorem test_outr_out_of_range : (next? (occur (.host (.outr 16#32)) (busyWith .pack []))).map (·.resp) =
    some (.byte 0x00#8) := by decide
/-- T18: an OUTR while busy is a draw, a fresh one each time. -/
theorem test_outr_busy : (next? (occur (.host (.outr 0#32)) (busyWith .pack []))).map (fun t => (t.resp, t.draws)) =
    some (.byte (Config.draw 0), 1) := rfl
/-- T23: the bytes past the result stay. -/
theorem test_stale_byte :
    (next? (exec .pack { busyWith .pack [0xFF#8] with outBuf := [(0, 0x7F#8), (1, 0x7F#8), (2, 0x60#8)] })).map (·.outBuf) =
    some [(0, 0x7F#8), (1, 0x40#8), (2, 0x60#8)] := by decide
/-- T24: a failure leaves the bytes from ERR_POS on and writes draws below it. -/
theorem test_failure_draws :
    (next? (exec .unescape { busyWith .unescape [0x41#8, 0x7F#8] with outBuf := [(0, 0x7F#8), (1, 0x40#8), (2, 0x60#8)] })).map
      (fun t => (t.outBuf, t.errPos, t.outLen)) =
    some ([(0, Config.draw 0), (1, 0x40#8), (2, 0x60#8)], 1#32, 0#32) := rfl
/-- T26: an aborting RESET leaves the bytes from 2 * IN_LEN on. -/
theorem test_reset_abort :
    (next? (occur (.host .reset) { busyWith .pack [1#8, 2#8, 3#8] with outBuf := [(6, 0xAB#8)] })).map
      (fun t => (readReg .status t, t.inLen, Memory.lookup 6 t.outBuf, t.inBuf)) =
    some (0x00000000#32, 0#32, some 0xAB#8, [(0, 1#8), (1, 2#8), (2, 3#8)]) := by decide
/-- N3 as read by REGR STATUS (R108). -/
theorem test_status_word :
    readReg .status { State.reset with state := .error, err := .unknownEscapeCode, errData := 0x99#8 } = 0x00009923#32 := by decide

/-! ## The machine -/

/-- The command word 0x2 placed after reset runs as ESCAPE of the empty buffer (T20's shape). -/
theorem test_placed_word : next? (step (State.reset.withFetchWord 32 2)) =
    some { State.reset with state := .done, opL := .escape } := by decide
/-- A word the opcode map does not assign, placed after reset, is rejected (T6). -/
theorem test_placed_illegal_word : (next? (step (State.reset.withFetchWord 32 4))).map (readReg .status) =
    some 0x00000033#32 := by decide
/-- R79 `load`, `clrdrop` and `copyback`. -/
theorem test_expand : Pseudo.expand (.load [0xFF#8]) = [.inw 0#32 0xFF#8, .regw 2#3 1#32] ∧
    Pseudo.expand .clrdrop = [.regw 1#3 4#32] ∧
    Pseudo.expand (.copyback [7#8]) = [.regr 3#3, .outr 0#32, .inw 0#32 7#8, .regw 2#3 1#32] := by decide
/-- The canonical form: written in either order, the contents are equal data. -/
theorem test_memory_canonical : Memory.write 3 1#8 (Memory.write 1 2#8 []) = Memory.write 1 2#8 (Memory.write 3 1#8 []) := by decide

/-! ## Witnesses: encoding and register transactions -/

theorem witness_IllegalWordRejectedOrDropped :
    3 < (4#32 : Word).toNat ∧ 3 < (0xFFFFFFFF#32 : Word).toNat ∧ (loaded []).state ≠ .busy ∧ (busyWith .pack []).state = .busy := by
  decide
theorem witness_IssueStartsOrRejectsTheCommand :
    (loaded []).state ≠ .busy ∧ decode 4#32 = .error .unassignedOp ∧ decode 0#32 = .ok .pack ∧
    ({ loaded [] with inLen := 9#32 } : State).inCap < ({ loaded [] with inLen := 9#32 } : State).inLen.toNat ∧
    ({ loaded [] with inLen := 8#32 } : State).inLen.toNat ≤ ({ loaded [] with inLen := 8#32 } : State).inCap := by decide
theorem witness_CommandWriteWhileBusyOnlySetsDrop : (busyWith .escape []).state = .busy := by decide
theorem witness_InLenWriteStoresOrIsDropped : (busyWith .pack []).state = .busy ∧ (loaded []).state ≠ .busy := by decide
theorem witness_ReadOnlyRegisterWritesDoNothing : 3 ≤ (3#3 : BitVec 3).toNat ∧ 3 ≤ (7#3 : BitVec 3).toNat := by decide
theorem witness_NextCommandLeavesError : ({ loaded [] with state := .error, err := .illegalCmd } : State).state = .error := by decide

/-! ## Witnesses: buffer transactions -/

theorem witness_InputWriteStoresOneByte :
    (busyWith .pack []).state = .busy ∧ (loaded []).state ≠ .busy ∧ (loaded []).inCap ≤ (8#32 : Word).toNat ∧
    (7#32 : Word).toNat < (loaded []).inCap := by decide
theorem witness_InputReadReturnsTheStoredByte :
    (7#32 : Word).toNat < (loaded []).inCap ∧ (loaded []).inCap ≤ (8#32 : Word).toNat := by decide
theorem witness_OutputReadReturnsTheStoredByte :
    2 * (loaded []).inCap ≤ (16#32 : Word).toNat ∧ (15#32 : Word).toNat < 2 * (busyWith .pack []).inCap ∧
    (busyWith .pack []).state = .busy ∧ (loaded []).state ≠ .busy := by decide
theorem witness_ReadsAreRepeatable : ∃ t u, (loaded []).state ≠ .busy ∧
    occur (.host (.outr 0#32)) (loaded []) = .next t ∧ occur (.host (.outr 0#32)) t = .next u :=
  ⟨_, _, by decide, rfl, rfl⟩

/-! ## Witnesses: the block's step -/

theorem witness_StepPerformsTheLatchedCommand :
    ({ busyWith .pack [] with events := [.perform] } : State).events = .perform :: [] ∧ (busyWith .pack []).events = [] ∧
    (loaded []).state ≠ .busy := by decide
theorem witness_IssuedWordRunsAsItsInstruction :
    ({ loaded [1#8] with events := [.host (.regw 0#3 2#32), .perform] } : State).events = .host (.regw 0#3 2#32) :: .perform :: [] ∧
    (loaded [1#8]).state ≠ .busy ∧ (loaded [1#8]).inLen.toNat ≤ (loaded [1#8]).inCap ∧ decode 2#32 = .ok .escape := by decide
theorem witness_PlacedWordIsRunByTheNextStep :
    decodeTableWord 32 3 = some .unescape ∧ (loaded [1#8]).inLen.toNat ≤ (loaded [1#8]).inCap := by decide

/-! ## Witnesses: the four commands -/

/-- A command in flight on an input that fills the buffer. -/
theorem ready_full : Ready (busyWith .pack [1#8, 2#8, 3#8, 4#8, 5#8, 6#8, 7#8, 8#8]) := ⟨by decide, by decide, by decide⟩
/-- A command in flight on the empty input. -/
theorem ready_empty (i : Instr) : Ready (busyWith i []) := by cases i <;> exact ⟨by decide, by decide, by decide⟩

theorem witness_PackCommitsTheSevenBitSymbols : Ready (busyWith .pack []) := ready_empty .pack
theorem witness_UnpackCommitsTheEightBitBytes : Ready (busyWith .unpack []) := ready_empty .unpack
theorem witness_EscapeCommitsTheSubstitution : Ready (busyWith .escape []) := ready_empty .escape
theorem witness_UnescapeCommitsTheUnitsValues :
    Ready (busyWith .unescape [0x41#8, 0x7F#8, 0x01#8]) ∧ [EscUnit.plain 0x41#8, .pair .cr].all EscUnit.valid = true ∧
    (busyWith .unescape [0x41#8, 0x7F#8, 0x01#8]).input = wireOf [.plain 0x41#8, .pair .cr] :=
  ⟨⟨by decide, by decide, by decide⟩, by decide, by decide⟩
theorem witness_UnescapeReportsTruncatedEscape :
    Ready (busyWith .unescape [0x7F#8, 0x7F#8, 0x7F#8]) ∧ [EscUnit.pair .esc].all EscUnit.valid = true ∧
    (busyWith .unescape [0x7F#8, 0x7F#8, 0x7F#8]).input = wireOf [.pair .esc] ++ [0x7F#8] :=
  ⟨⟨by decide, by decide, by decide⟩, by decide, by decide⟩
theorem witness_UnescapeReportsUnknownEscapeCode :
    Ready (busyWith .unescape [0x41#8, 0x7F#8, 0x00#8, 0x7F#8]) ∧ [EscUnit.plain 0x41#8].all EscUnit.valid = true ∧
    (busyWith .unescape [0x41#8, 0x7F#8, 0x00#8, 0x7F#8]).input = wireOf [.plain 0x41#8] ++ 0x7F#8 :: 0x00#8 :: [0x7F#8] ∧
    (0x00#8 : Byte) ≠ 0x01#8 ∧ (0x00#8 : Byte) ≠ 0x02#8 ∧ (0x00#8 : Byte) ≠ 0x7F#8 :=
  ⟨⟨by decide, by decide, by decide⟩, by decide, by decide, by decide, by decide, by decide⟩
theorem witness_PerformLeavesTheHostsSide : ∃ t, exec .escape (busyWith .escape [0x0D#8]) = .next t := ⟨_, rfl⟩

/-- The states of these tests meet the invariant. -/
theorem inv_busyWith : Inv (busyWith .escape [0x0D#8]) :=
  ⟨by decide, ⟨by decide, by decide, by decide, by decide, by decide, by decide⟩, by decide, by decide, by decide, by decide⟩
theorem inv_busyWith' : Inv { busyWith .escape [0x0D#8] with inCap := 1, outBuf := [(1, 5#8)], draws := 3 } :=
  ⟨by decide, ⟨by decide, by decide, by decide, by decide, by decide, by decide⟩, by decide, by decide, by decide, by decide⟩

theorem witness_OutcomeDependsOnTheInputAlone : ∃ s s' t t', Inv s ∧ Inv s' ∧ s.state = .busy ∧ s'.state = .busy ∧
    s.input = s'.input ∧ s.outBuf ≠ s'.outBuf ∧ exec .escape s = .next t ∧ exec .escape s' = .next t' :=
  ⟨_, _, _, _, inv_busyWith, inv_busyWith', by decide, by decide, by decide, by decide, rfl, rfl⟩

/-! ## Witnesses: the codec functions -/

theorem witness_UnpackIgnoresBitSeven :
    [0xFF#8, 0xC0#8].map (fun v : Byte => v &&& 0x7F#8) = [0x7F#8, 0x40#8].map (fun v : Byte => v &&& 0x7F#8) := by decide
theorem witness_UnpackIgnoresTrailingBits : ∀ k, k < 8 * unpackLen [0x7F#8, 0x7F#8].length →
    sevenBitStream (byteAt [0x7F#8, 0x7F#8]) k = sevenBitStream (byteAt [0x7F#8, 0x40#8]) k := by decide
theorem witness_PackedLengthsAreNotOneModEight : 9 % 8 = 1 ∧ 1 % 8 = 1 := by decide
theorem witness_ResultLengthsFitOutputBuffer : unescape [0x7F#8, 0x7F#8] = .ok [0x7F#8] := by decide
/-- At the boundary: IN_CAP = 1 and OUT_LEN = 2 = OUT_CAP (as T22, with a reserved byte escaped). -/
theorem witness_ResultLengthsFitOutputBuffer_full : ∃ s t, Inv s ∧ s.state = .busy ∧ exec .escape s = .next t ∧
    s.inLen.toNat = s.inCap ∧ t.outLen.toNat = s.outCap :=
  ⟨_, _, inv_busyWith', rfl, rfl, by decide, by decide⟩
theorem witness_UnescapeLengthCountsPairs : unescape [0x7F#8, 0x01#8, 0x41#8] = .ok [0x0D#8, 0x41#8] := by decide
theorem witness_EscapeUndoesUnescapeIff : unescape [0x0D#8, 0x7F#8, 0x01#8] = .ok [0x0D#8, 0x0D#8] := by decide

/-! ## Witnesses: the machine as a whole -/

theorem witness_StepKeepsTheInvariant : ∃ t, Inv (busyWith .escape [0x0D#8]) ∧ step (busyWith .escape [0x0D#8]) = .next t :=
  ⟨_, inv_busyWith, rfl⟩
theorem witness_ResetSetsRegistersAndKeepsBuffers :
    (loaded []).state ≠ .busy ∧ min (2 * (busyWith .pack [1#8]).inLen.toNat) (2 * (busyWith .pack [1#8]).inCap) ≤ 2 := by decide
theorem witness_OnlyResetReturnsToIdle : ∃ t,
    step { busyWith .pack [] with events := [.host .reset] } = .next t ∧ t.state = .idle := ⟨_, rfl, rfl⟩
theorem witness_DropChangesOnlyByItsRule_set : ∃ t, step { busyWith .pack [] with events := [.host (.inw 0#32 1#8)] } = .next t ∧
    (busyWith .pack []).drop = false ∧ t.drop = true := ⟨_, rfl, by decide, rfl⟩
theorem witness_DropChangesOnlyByItsRule_clear : ∃ t,
    step { busyWith .pack [] with drop := true, events := [.host (.regw 1#3 4#32)] } = .next t ∧ t.drop = false := ⟨_, rfl, by decide⟩
theorem witness_OnlyTheHostChangesTheInput_length : ∃ t,
    step { loaded [] with events := [.host (.regw 2#3 5#32)] } = .next t ∧ t.inLen ≠ (loaded []).inLen := ⟨_, rfl, by decide⟩
theorem witness_OnlyTheHostChangesTheInput_byte : ∃ t,
    step { loaded [1#8] with events := [.host (.inw 0#32 2#8)] } = .next t ∧ t.inByte 0 ≠ (loaded [1#8]).inByte 0 :=
  ⟨_, rfl, by decide⟩
theorem witness_OutputChangesOnlyByPerformOrReset : ∃ s t, Inv s ∧ step s = .next t ∧ t.outByte 1 ≠ s.outByte 1 :=
  ⟨_, _, inv_busyWith', rfl, by decide⟩
theorem witness_InputIsFixedWhileBusy : ∃ t, (busyWith .pack []).state = .busy ∧ Transaction.outr 0#32 ≠ .reset ∧
    occur (.host (.outr 0#32)) (busyWith .pack []) = .next t := ⟨_, by decide, by decide, rfl⟩
theorem witness_CapacityIsConstant : ∃ t, step { loaded [] with events := [.powerOn] } = .next t := ⟨_, rfl⟩
theorem witness_InstancesShareNoState : ∃ sys', System.stepInstance 0 [busyWith .pack [], loaded []] = .next sys' ∧ 1 ≠ 0 :=
  ⟨_, rfl, by decide⟩

/-! ## Witnesses: pseudo-instructions -/

theorem witness_LoadMakesTheBytesTheInput : (loaded []).state ≠ .busy ∧ capacityOk (loaded []).inCap = true ∧
    [1#8, 2#8, 3#8, 4#8, 5#8, 6#8, 7#8, 8#8].length ≤ (loaded []).inCap := by decide
theorem witness_CopybackMakesTheResultTheInput :
    ({ loaded [] with state := .done, outLen := 8#32 } : State).state ≠ .busy ∧
    capacityOk ({ loaded [] with state := .done, outLen := 8#32 } : State).inCap = true ∧
    ({ loaded [] with state := .done, outLen := 8#32 } : State).outLen.toNat ≤
      ({ loaded [] with state := .done, outLen := 8#32 } : State).inCap := by decide

end Sys2Proof.Tests
end

section
/-! How long the results of the four codec functions are (R133, R164, R167), what a codec function can answer, and from
these the bounds of R10 on OUT_LEN and ERR after PERFORM. -/

namespace Sys2Proof.Machine

/-! ## PACK and UNPACK -/

@[simp] theorem length_zeros (m : Nat) : (zeros m).length = m :=
  List.length_replicate

@[simp] theorem length_pack (x : List Byte) : (pack x).length = packLen x.length := by
  rw [pack, length_copyBits, length_zeros]

@[simp] theorem length_unpack (x : List Byte) : (unpack x).length = unpackLen x.length := by
  rw [unpack, length_copyBits, length_zeros]

theorem packLen_le_two_mul (n : Nat) : packLen n ≤ 2 * n := by
  unfold packLen
  omega

theorem unpackLen_le (m : Nat) : unpackLen m ≤ m := by
  unfold unpackLen
  omega

/-! ## ESCAPE -/

/-- The scan of R164 only overwrites bytes of the buffer it was given. -/
@[simp] theorem length_escapeScan (rest : List Byte) (j : Nat) (y : List Byte) :
    (escapeScan rest j y).length = y.length := by
  fun_induction escapeScan rest j y with
  | case1 => rfl
  | case2 j y v rest k hk ih => rw [ih, List.length_set, List.length_set]
  | case3 j y v rest hk ih => rw [ih, List.length_set]

@[simp] theorem length_escape (x : List Byte) : (escape x).length = x.length + reservedCount x := by
  rw [escape, length_escapeScan, List.length_replicate]

theorem length_escape_le_two_mul (x : List Byte) : (escape x).length ≤ 2 * x.length := by
  have hcount : reservedCount x ≤ x.length := List.countP_le_length
  rw [length_escape]
  omega

/-! ## UNESCAPE -/

/-- All that the scan of R167 can answer: at most one byte more for each byte it reads, or one of the two failures of R168
and R169 at a marker among those bytes. -/
theorem unescapeScan_cases (rest : List Byte) (i : Nat) (y : List Byte) :
    (∃ z, unescapeScan rest i y = .ok z ∧ z.length ≤ y.length + rest.length) ∨
    (∃ p, unescapeScan rest i y = .err .truncatedEscape p 0x00#8 ∧ p < i + rest.length) ∨
    ∃ p c, unescapeScan rest i y = .err .unknownEscapeCode p c ∧ p < i + rest.length := by
  fun_induction unescapeScan rest i y
  case case1 i y => exact .inl ⟨y, rfl, Nat.le_add_right ..⟩
  case case2 i y => exact .inr (.inl ⟨i, rfl, by simp⟩)
  case case3 i y c rest hc => exact .inr (.inr ⟨i, c, rfl, by simp⟩)
  case case4 ih | case5 ih =>
    simp only [List.length_append, List.length_cons, List.length_nil] at ih ⊢
    obtain ⟨z, h, hz⟩ | ⟨p, h, hp⟩ | ⟨p, d, h, hp⟩ := ih
    · exact .inl ⟨z, h, by omega⟩
    · exact .inr (.inl ⟨p, h, by omega⟩)
    · exact .inr (.inr ⟨p, d, h, by omega⟩)

theorem unescape_cases (x : List Byte) :
    (∃ y, unescape x = .ok y ∧ y.length ≤ x.length) ∨
    (∃ p, unescape x = .err .truncatedEscape p 0x00#8 ∧ p < x.length) ∨
    ∃ p c, unescape x = .err .unknownEscapeCode p c ∧ p < x.length := by
  simpa [unescape] using unescapeScan_cases x 0 []

theorem length_le_of_unescape_eq_ok {x y : List Byte} (h : unescape x = .ok y) : y.length ≤ x.length := by
  obtain ⟨z, hz, hle⟩ | ⟨p, hp, -⟩ | ⟨p, c, hp, -⟩ := unescape_cases x
  · cases hz.symm.trans h
    exact hle
  · cases hp.symm.trans h
  · cases hp.symm.trans h

/-! ## The four commands -/

/-- All that the codec function of a command can answer: a result of at most twice the input's length, or, for UNESCAPE alone,
one of its two failures at a byte of the input. -/
theorem codecOf_cases (i : Instr) (x : List Byte) :
    (∃ y, codecOf i x = .ok y ∧ y.length ≤ 2 * x.length) ∨
    (i = .unescape ∧ ∃ p, codecOf i x = .err .truncatedEscape p 0x00#8 ∧ p < x.length) ∨
    (i = .unescape ∧ ∃ p c, codecOf i x = .err .unknownEscapeCode p c ∧ p < x.length) := by
  cases i with
  | pack => exact .inl ⟨pack x, rfl, length_pack x ▸ packLen_le_two_mul _⟩
  | unpack =>
    have hle := unpackLen_le x.length
    exact .inl ⟨unpack x, rfl, by rw [length_unpack]; omega⟩
  | escape => exact .inl ⟨escape x, rfl, length_escape_le_two_mul x⟩
  | unescape =>
    obtain ⟨y, h, hy⟩ | ⟨p, h, hp⟩ | ⟨p, c, h, hp⟩ := unescape_cases x
    · exact .inl ⟨y, h, by omega⟩
    · exact .inr (.inl ⟨rfl, p, h, hp⟩)
    · exact .inr (.inr ⟨rfl, p, c, h, hp⟩)

/-- OUT_LEN never exceeds the length of the result it was set from. -/
theorem commitOk_outLen_le (y : List Byte) (s : State) : (commitOk y s).outLen.toNat ≤ y.length := by
  rw [commitOk_outLen, BitVec.toNat_ofNat]
  exact Nat.mod_le ..

/-- What committing a command's result leaves in OUT_LEN and ERR: at most twice IN_LEN, and the ERR before it unless
UNESCAPE failed. -/
theorem commit_codecOf_bounds (i : Instr) (s : State) :
    (commit (codecOf i s.input) s).outLen.toNat ≤ 2 * s.inLen.toNat ∧
    ((commit (codecOf i s.input) s).err = s.err ∨
      (i = .unescape ∧ ((commit (codecOf i s.input) s).err = .truncatedEscape ∨
        (commit (codecOf i s.input) s).err = .unknownEscapeCode))) := by
  obtain ⟨y, h, hy⟩ | ⟨hi, p, h, -⟩ | ⟨hi, p, c, h, -⟩ := codecOf_cases i s.input
  · rw [length_input] at hy
    rw [h]
    exact ⟨(commitOk_outLen_le y s).trans hy, .inl rfl⟩
  · rw [h]
    exact ⟨Nat.zero_le _, .inr ⟨hi, .inl rfl⟩⟩
  · rw [h]
    exact ⟨Nat.zero_le _, .inr ⟨hi, .inr rfl⟩⟩

/-- Settles O31: the lengths of the codec functions' results, and with IN_LEN <= IN_CAP in a BUSY state the bounds on what
PERFORM commits. -/
theorem resultLengthsFitOutputBuffer : Obligations.ResultLengthsFitOutputBuffer := by
  refine ⟨fun x => ⟨length_pack x, ?_, length_unpack x, ?_, length_escape_le_two_mul x,
    fun y h => length_le_of_unescape_eq_ok h⟩, fun i s t hinv hbusy hexec => ?_⟩
  · exact length_pack x ▸ packLen_le_two_mul _
  · exact length_unpack x ▸ unpackLen_le _
  · obtain ⟨herr, -, -, -, hfit⟩ := hinv.status.busy hbusy
    obtain ⟨-, rfl⟩ | ⟨hnot, -⟩ := exec_cases hexec
    · obtain ⟨hlen, hcode⟩ := commit_codecOf_bounds i s
      exact ⟨hfit, hlen, by omega, herr ▸ hcode⟩
    · exact absurd hbusy hnot

end Sys2Proof.Machine
end

section
/-! The fields that an issue, a commit and the two resets leave alone or set, each said once: what the proofs about whole
steps use in place of these operations' definitions. -/

namespace Sys2Proof.Machine

/-! ## The issue (R103) -/

/-- An issue writes STATE, OP_L, OUT_LEN and the error record, and nothing else. -/
theorem issue_frame (w : Word) (s : State) :
    issue w s = { s with
      state := (issue w s).state, err := (issue w s).err, errData := (issue w s).errData, errPos := (issue w s).errPos,
      outLen := (issue w s).outLen, opL := (issue w s).opL } := by
  obtain ⟨-, h⟩ | ⟨i, -, -, h⟩ | ⟨i, -, -, h⟩ := issue_cases w s <;> rw [h] <;> rfl

@[simp] theorem issue_inCap (w : Word) (s : State) : (issue w s).inCap = s.inCap := by rw [issue_frame]
@[simp] theorem issue_inBuf (w : Word) (s : State) : (issue w s).inBuf = s.inBuf := by rw [issue_frame]
@[simp] theorem issue_outBuf (w : Word) (s : State) : (issue w s).outBuf = s.outBuf := by rw [issue_frame]
@[simp] theorem issue_inLen (w : Word) (s : State) : (issue w s).inLen = s.inLen := by rw [issue_frame]
@[simp] theorem issue_drop (w : Word) (s : State) : (issue w s).drop = s.drop := by rw [issue_frame]
@[simp] theorem issue_powerOns (w : Word) (s : State) : (issue w s).powerOns = s.powerOns := by rw [issue_frame]

theorem issue_state_ne_idle (w : Word) (s : State) : (issue w s).state ≠ .idle := by
  obtain ⟨-, h⟩ | ⟨i, -, -, h⟩ | ⟨i, -, -, h⟩ := issue_cases w s <;> rw [h] <;> exact nofun

/-! ## The commit (R116, R117) -/

@[simp] theorem commit_inCap (r : CodecResult) (s : State) : (commit r s).inCap = s.inCap := by cases r <;> rfl
@[simp] theorem commit_inBuf (r : CodecResult) (s : State) : (commit r s).inBuf = s.inBuf := by cases r <;> rfl
@[simp] theorem commit_inLen (r : CodecResult) (s : State) : (commit r s).inLen = s.inLen := by cases r <;> rfl
@[simp] theorem commit_drop (r : CodecResult) (s : State) : (commit r s).drop = s.drop := by cases r <;> rfl
@[simp] theorem commit_opL (r : CodecResult) (s : State) : (commit r s).opL = s.opL := by cases r <;> rfl
@[simp] theorem commit_resp (r : CodecResult) (s : State) : (commit r s).resp = s.resp := by cases r <;> rfl
@[simp] theorem commit_keeps_events (r : CodecResult) (s : State) : (commit r s).events = s.events := by cases r <;> rfl
@[simp] theorem commit_powerOns (r : CodecResult) (s : State) : (commit r s).powerOns = s.powerOns := by cases r <;> rfl

theorem commit_state_ne_idle (r : CodecResult) (s : State) : (commit r s).state ≠ .idle := by
  cases r <;> simp [commit]

/-- A command's commit reaches no byte of OUT_BUF at or above 2 * IN_LEN (R10, R52). -/
theorem outByte_commit_codecOf_of_le (i : Instr) {s : State} {a : Nat} (ha : 2 * s.inLen.toNat ≤ a) :
    (commit (codecOf i s.input) s).outByte a = s.outByte a := by
  have hlen := length_input s
  obtain ⟨y, h, hy⟩ | ⟨-, p, h, hp⟩ | ⟨-, p, c, h, hp⟩ := codecOf_cases i s.input <;> rw [h]
  · exact (outByte_commitOk y a s).trans (if_neg (by omega))
  · exact outByte_commitErr_of_le (by omega) ..
  · exact outByte_commitErr_of_le (by omega) ..

/-! ## The resets (R230 to R233) -/

@[simp] theorem resetBlock_inCap (s : State) : (resetBlock s).inCap = s.inCap := by unfold resetBlock; split <;> rfl
@[simp] theorem resetBlock_inBuf (s : State) : (resetBlock s).inBuf = s.inBuf := by unfold resetBlock; split <;> rfl
@[simp] theorem resetBlock_drop (s : State) : (resetBlock s).drop = false := by unfold resetBlock; split <;> rfl
@[simp] theorem resetBlock_powerOns (s : State) : (resetBlock s).powerOns = s.powerOns := by
  unfold resetBlock; split <;> rfl

theorem resetBlock_of_busy {s : State} (hb : s.state = .busy) :
    resetBlock s = resetRegisters (s.drawOut (abortedBytes s)) := if_pos hb

theorem resetBlock_of_not_busy {s : State} (hb : s.state ≠ .busy) : resetBlock s = resetRegisters s := if_neg hb

/-- A RESET changes a byte of OUT_BUF only where it aborts a command that could have written it (R232). -/
theorem busy_of_outByte_resetBlock_ne {s : State} {a : Nat} (h : (resetBlock s).outByte a ≠ s.outByte a) :
    s.state = .busy ∧ a < 2 * s.inLen.toNat ∧ a < 2 * s.inCap := by
  by_cases hb : s.state = .busy
  · have hlt : a < min (2 * s.inLen.toNat) (2 * s.inCap) := by
      by_contra hge
      exact h (resetBlock_of_busy hb ▸ outByte_drawOut_of_le (Nat.le_of_not_lt hge) s)
    exact ⟨hb, lt_min_iff.1 hlt⟩
  · exact absurd (resetBlock_of_not_busy hb ▸ rfl) h

end Sys2Proof.Machine
end

section
/-! The invariant of R40, R50 and R52 under each operation on the state, and from these under every step. -/

namespace Sys2Proof

open Sys2Proof.Machine

variable {s t : State}

/-! ## The status clauses (R40) -/

/-- An error found at the issue: the record is cleared, so only ERR tells it from the reset values (R103). -/
theorem statusInv_issueError (s : State) {e : ErrCode} (he : e ≠ .none) :
    StatusInv (enterError e 0 0#8 (clearRecord s)) where
  idle h := nomatch h
  busy h := nomatch h
  done h := nomatch h
  error _ := ⟨he, rfl⟩
  errData h := absurd rfl h
  errPos h := absurd rfl h

theorem statusInv_issued (i : Instr) (hfit : s.inLen.toNat ≤ s.inCap) :
    StatusInv { clearRecord s with opL := i, state := .busy } where
  idle h := nomatch h
  busy _ := ⟨rfl, rfl, rfl, rfl, hfit⟩
  done h := nomatch h
  error h := nomatch h
  errData h := absurd rfl h
  errPos h := absurd rfl h

theorem statusInv_issue (w : Word) (s : State) : StatusInv (issue w s) := by
  obtain ⟨-, h⟩ | ⟨i, -, -, h⟩ | ⟨i, -, hfit, h⟩ := issue_cases w s <;> rw [h]
  · exact statusInv_issueError s (by decide)
  · exact statusInv_issueError s (by decide)
  · exact statusInv_issued i hfit

theorem statusInv_resetRegisters (s : State) : StatusInv (resetRegisters s) where
  idle _ := ⟨rfl, rfl, rfl, rfl⟩
  busy h := nomatch h
  done h := nomatch h
  error h := nomatch h
  errData h := absurd rfl h
  errPos h := absurd rfl h

theorem StatusInv.commitOk (h : StatusInv s) (hb : s.state = .busy) {y : List Byte} (hy : y.length ≤ s.outCap) :
    StatusInv (commitOk y s) where
  idle h := nomatch h
  busy h := nomatch h
  done _ :=
    have ⟨herr, hdata, hpos, _, _⟩ := h.busy hb
    ⟨herr, hdata, hpos, (commitOk_outLen_le y s).trans hy⟩
  error h := nomatch h
  errData := h.errData
  errPos := h.errPos

/-- The two failures of UNESCAPE: only the unknown code records a byte (R201, R202). -/
theorem statusInv_commitErr (s : State) {e : ErrCode} (p : Nat) {d : Byte}
    (he : e = .truncatedEscape ∧ d = 0#8 ∨ e = .unknownEscapeCode) : StatusInv (commitErr e p d s) where
  idle h := nomatch h
  busy h := nomatch h
  done h := nomatch h
  error _ := ⟨by rcases he with ⟨rfl, -⟩ | rfl <;> exact nofun, rfl⟩
  errData hd := he.resolve_left fun ⟨_, h0⟩ => hd h0
  errPos _ := he.imp_left And.left

/-! ## The invariant -/

/-- The invariant reads the parameter, the buffers and the status clauses, and nothing else of a state. -/
theorem Inv.of_eq (h : Inv s) (hcap : t.inCap = s.inCap) (hin : t.inBuf = s.inBuf) (hout : t.outBuf = s.outBuf)
    (hstatus : StatusInv t) : Inv t where
  capacity := hcap ▸ h.capacity
  status := hstatus
  inWf := hin ▸ h.inWf
  inWithin := hin ▸ hcap ▸ h.inWithin
  outWf := hout ▸ h.outWf
  outWithin := by simpa only [State.outCap, hcap, hout] using h.outWithin

/-- DROP, OP_L and the model's own fields (logs 3, 4, 5, 7) stand in no clause of the invariant. -/
theorem Inv.set_unconstrained (h : Inv s) (d : Bool) (o : Instr) (r : Response) (es : List Event) (n p : Nat) :
    Inv { s with drop := d, opL := o, resp := r, events := es, draws := n, powerOns := p } :=
  h.of_eq rfl rfl rfl { h.status with }

/-- IN_LEN stands in the BUSY clause only. -/
theorem Inv.set_inLen (h : Inv s) (hb : s.state ≠ .busy) (w : Word) : Inv { s with inLen := w } :=
  h.of_eq rfl rfl rfl { h.status with busy := fun h => absurd h hb }

theorem Inv.writeIn (h : Inv s) {a : Nat} (ha : a < s.inCap) (v : Byte) : Inv (s.writeIn a v) :=
  { h with
    status := { h.status with }
    inWf := wf_write _ _ _ h.inWf
    inWithin := within_write _ _ _ _ ha h.inWithin }

theorem Inv.writeOut (h : Inv s) {bs : List Byte} (hbs : bs.length ≤ s.outCap) : Inv (s.writeOut bs) :=
  { h with
    status := { h.status with }
    outWf := wf_writeFrom _ _ _ h.outWf
    outWithin := within_writeFrom _ _ _ _ ((Nat.zero_add _).trans_le hbs) h.outWithin }

theorem Inv.drawOut (h : Inv s) {n : Nat} (hn : n ≤ s.outCap) : Inv (s.drawOut n) :=
  (h.writeOut ((length_nextDraws n s).trans_le hn)).set_unconstrained ..

theorem Inv.issue (h : Inv s) (w : Word) : Inv (issue w s) :=
  h.of_eq (issue_inCap w s) (issue_inBuf w s) (issue_outBuf w s) (statusInv_issue w s)

theorem Inv.resetRegisters (h : Inv s) : Inv (resetRegisters s) :=
  h.of_eq rfl rfl rfl (statusInv_resetRegisters s)

theorem Inv.resetBlock (h : Inv s) : Inv (resetBlock s) := by
  by_cases hb : s.state = .busy
  · rw [resetBlock_of_busy hb]
    exact (h.drawOut (min_le_right ..)).resetRegisters
  · rw [resetBlock_of_not_busy hb]
    exact h.resetRegisters

/-- Power-on empties both buffers, and the empty contents meet every clause about them (R233). -/
theorem Inv.powerOn (h : Inv s) : Inv (powerOn s) where
  capacity := h.capacity
  status := { statusInv_resetRegisters s with }
  inWf := rfl
  inWithin := rfl
  outWf := rfl
  outWithin := rfl

/-- The commit of a command in flight: IN_LEN <= IN_CAP holds of every BUSY state, so the result fits OUT_BUF (R10, R52). -/
theorem Inv.commit_codecOf (h : Inv s) (hb : s.state = .busy) (i : Instr) : Inv (commit (codecOf i s.input) s) := by
  obtain ⟨-, -, -, -, hfit⟩ := h.status.busy hb
  have hlen : 2 * s.input.length ≤ s.outCap := by rw [length_input]; exact Nat.mul_le_mul_left 2 hfit
  obtain ⟨y, hr, hy⟩ | ⟨-, p, hr, hp⟩ | ⟨-, p, c, hr, hp⟩ := codecOf_cases i s.input <;> rw [hr]
  · have hy' := hy.trans hlen
    exact (h.writeOut hy').of_eq rfl rfl rfl (h.status.commitOk hb hy')
  · exact (h.drawOut (n := p) (by omega)).of_eq rfl rfl rfl (statusInv_commitErr s p (.inl ⟨rfl, rfl⟩))
  · exact (h.drawOut (n := p) (by omega)).of_eq rfl rfl rfl (statusInv_commitErr s p (.inr rfl))

theorem Inv.transact (h : Inv s) (x : Transaction) : Inv (transact x s) := by
  obtain ⟨r, n, ht⟩ | ⟨-, -, ht⟩ | ⟨-, w, -, ht⟩ | ⟨w, -, -, ht⟩ | ⟨hb, w, -, ht⟩ | ⟨-, a, v, -, ha, ht⟩ | ⟨-, ht⟩ :=
    transact_cases x s <;> rw [ht]
  · exact h.set_unconstrained ..
  · exact h.set_unconstrained ..
  · exact (h.issue w).set_unconstrained ..
  · exact h.set_unconstrained ..
  · exact (h.set_inLen hb w).set_unconstrained ..
  · exact (h.writeIn ha v).set_unconstrained ..
  · exact h.resetBlock.set_unconstrained ..

/-- Settles O47: each form a step can answer in keeps the invariant. -/
theorem stepKeepsTheInvariant : Obligations.StepKeepsTheInvariant := by
  intro s t h hstep
  obtain ⟨es, rfl⟩ | ⟨hb, -, es, rfl⟩ | ⟨x, rest, -, rfl⟩ | ⟨rest, -, rfl⟩ := step_forms hstep
  · exact h.set_unconstrained ..
  · exact (h.commit_codecOf hb s.opL).set_unconstrained ..
  · exact (h.transact x).set_unconstrained ..
  · exact h.powerOn.set_unconstrained ..

/-- Settles O48: the registers hold the values `resetRegisters` gives them, IN_CAP is in range, and both buffers are empty. -/
theorem resetMeetsTheInvariant : Obligations.ResetMeetsTheInvariant where
  capacity := by decide
  status := { statusInv_resetRegisters State.reset with }
  inWf := rfl
  inWithin := rfl
  outWf := rfl
  outWithin := rfl

end Sys2Proof
end

section
/-! What one step can do to STATE, DROP, IN_CAP and the buffers' bytes (R26, R29, R30, R33, R35, R36), each first said of a
host transaction. -/

namespace Sys2Proof.Machine

variable {s t : State} {x : Transaction} {a : Nat}

/-! ## Host transactions -/

@[simp] theorem transact_inCap (x : Transaction) (s : State) : (transact x s).inCap = s.inCap := by
  obtain ⟨r, n, ht⟩ | ⟨-, -, ht⟩ | ⟨-, w, -, ht⟩ | ⟨w, -, -, ht⟩ | ⟨-, w, -, ht⟩ | ⟨-, b, v, -, -, ht⟩ | ⟨-, ht⟩ :=
    transact_cases x s <;> simp [ht]

theorem idle_or_reset_of_transact_idle (h : (transact x s).state = .idle) : s.state = .idle ∨ x = .reset := by
  obtain ⟨r, n, ht⟩ | ⟨-, -, ht⟩ | ⟨-, w, -, ht⟩ | ⟨w, -, -, ht⟩ | ⟨-, w, -, ht⟩ | ⟨-, b, v, -, -, ht⟩ | ⟨hx, ht⟩ :=
    transact_cases x s <;> rw [ht] at h
  · exact .inl h
  · exact .inl h
  · exact absurd h (issue_state_ne_idle w s)
  · exact .inl h
  · exact .inl h
  · exact .inl h
  · exact .inr hx

/-- All that a transaction can do to DROP (R29). -/
theorem transact_drop_cases (x : Transaction) (s : State) :
    (transact x s).drop = s.drop ∨
    ((transact x s).drop = true ∧ s.state = .busy ∧
      ((∃ w, x = .regw 0#3 w) ∨ (∃ w, x = .regw 2#3 w) ∨ ∃ b v, x = .inw b v)) ∨
    ((transact x s).drop = false ∧ ((∃ w : Word, w.getLsbD 2 = true ∧ x = .regw 1#3 w) ∨ x = .reset)) := by
  obtain ⟨r, n, ht⟩ | ⟨hb, hx, ht⟩ | ⟨-, w, -, ht⟩ | ⟨w, hx, hw, ht⟩ | ⟨-, w, -, ht⟩ | ⟨-, b, v, -, -, ht⟩ | ⟨hx, ht⟩ :=
    transact_cases x s <;> rw [ht]
  · exact .inl rfl
  · exact .inr (.inl ⟨rfl, hb, hx⟩)
  · exact .inl (issue_drop w s)
  · exact .inr (.inr ⟨rfl, .inl ⟨w, hw, hx⟩⟩)
  · exact .inl rfl
  · exact .inl rfl
  · exact .inr (.inr ⟨resetBlock_drop s, .inr hx⟩)

theorem transact_inLen_ne (h : (transact x s).inLen ≠ s.inLen) :
    (s.state ≠ .busy ∧ x = .regw 2#3 (transact x s).inLen) ∨ x = .reset := by
  obtain ⟨r, n, ht⟩ | ⟨-, -, ht⟩ | ⟨-, w, -, ht⟩ | ⟨w, -, -, ht⟩ | ⟨hb, w, hx, ht⟩ | ⟨-, b, v, -, -, ht⟩ | ⟨hx, ht⟩ :=
    transact_cases x s <;> rw [ht] at h ⊢
  · exact absurd rfl h
  · exact absurd rfl h
  · exact absurd (issue_inLen w s) h
  · exact absurd rfl h
  · exact .inl ⟨hb, hx⟩
  · exact absurd rfl h
  · exact .inr hx

theorem transact_inByte_ne (h : (transact x s).inByte a ≠ s.inByte a) :
    s.state ≠ .busy ∧ a < s.inCap ∧ ∃ addr v, x = .inw addr v ∧ addr.toNat = a := by
  obtain ⟨r, n, ht⟩ | ⟨-, -, ht⟩ | ⟨-, w, -, ht⟩ | ⟨w, -, -, ht⟩ | ⟨-, w, -, ht⟩ | ⟨hb, b, v, hx, hlt, ht⟩ | ⟨-, ht⟩ :=
    transact_cases x s <;> rw [ht] at h
  · exact absurd rfl h
  · exact absurd rfl h
  · exact absurd (congrFun (inByte_congr (issue_inBuf w s) (issue_powerOns w s)) a) h
  · exact absurd rfl h
  · exact absurd rfl h
  · obtain rfl : a = b.toNat := by
      by_contra hne
      exact h ((inByte_writeIn b.toNat a v s).trans (if_neg hne))
    exact ⟨hb, hlt, b, v, hx, rfl⟩
  · exact absurd (congrFun (inByte_congr (resetBlock_inBuf s) (resetBlock_powerOns s)) a) h

theorem transact_outByte_ne (h : (transact x s).outByte a ≠ s.outByte a) :
    x = .reset ∧ s.state = .busy ∧ a < 2 * s.inLen.toNat ∧ a < 2 * s.inCap := by
  obtain ⟨r, n, ht⟩ | ⟨-, -, ht⟩ | ⟨-, w, -, ht⟩ | ⟨w, -, -, ht⟩ | ⟨-, w, -, ht⟩ | ⟨-, b, v, -, -, ht⟩ | ⟨hx, ht⟩ :=
    transact_cases x s <;> rw [ht] at h
  · exact absurd rfl h
  · exact absurd rfl h
  · exact absurd (congrFun (outByte_congr (issue_outBuf w s) (issue_powerOns w s)) a) h
  · exact absurd rfl h
  · exact absurd rfl h
  · exact absurd rfl h
  · exact ⟨hx, busy_of_outByte_resetBlock_ne h⟩

/-! ## Steps -/

/-- Settles O30: whatever the codec function gives, its commit leaves these fields alone. -/
theorem performLeavesTheHostsSide : Obligations.PerformLeavesTheHostsSide := by
  intro i s t h
  obtain ⟨-, rfl⟩ | ⟨-, rfl⟩ := exec_cases h <;> simp

/-- Settles O57. -/
theorem capacityIsConstant : Obligations.CapacityIsConstant := by
  intro s t h
  obtain ⟨es, rfl⟩ | ⟨-, -, es, rfl⟩ | ⟨x, rest, -, rfl⟩ | ⟨rest, -, rfl⟩ := step_forms h
  · rfl
  · exact commit_inCap ..
  · exact transact_inCap ..
  · rfl

/-- Settles O52: a commit ends in DONE or ERROR and an issue in BUSY or ERROR, so what is left is the resets. -/
theorem onlyResetReturnsToIdle : Obligations.OnlyResetReturnsToIdle := by
  intro s t h hidle
  obtain ⟨es, rfl⟩ | ⟨-, -, es, rfl⟩ | ⟨x, rest, hev, rfl⟩ | ⟨rest, hev, -⟩ := step_forms h
  · exact .inl hidle
  · exact absurd hidle (commit_state_ne_idle _ s)
  · obtain hs | rfl := idle_or_reset_of_transact_idle hidle
    · exact .inl hs
    · exact .inr (.inl ⟨rest, hev⟩)
  · exact .inr (.inr ⟨rest, hev⟩)

/-- All that a step can do to DROP (R29). -/
theorem step_drop_cases (h : step s = .next t) :
    t.drop = s.drop ∨
    (t.drop = true ∧ s.state = .busy ∧ ∃ rest,
      (∃ w, s.events = .host (.regw 0#3 w) :: rest) ∨ (∃ w, s.events = .host (.regw 2#3 w) :: rest) ∨
      ∃ a v, s.events = .host (.inw a v) :: rest) ∨
    (t.drop = false ∧ ∃ rest,
      (∃ w : Word, w.getLsbD 2 = true ∧ s.events = .host (.regw 1#3 w) :: rest) ∨
      s.events = .host .reset :: rest ∨ s.events = .powerOn :: rest) := by
  obtain ⟨es, rfl⟩ | ⟨-, -, es, rfl⟩ | ⟨x, rest, hev, rfl⟩ | ⟨rest, hev, rfl⟩ := step_forms h
  · exact .inl rfl
  · exact .inl (commit_drop _ s)
  · obtain hd | ⟨hd, hb, ⟨w, rfl⟩ | ⟨w, rfl⟩ | ⟨b, v, rfl⟩⟩ | ⟨hd, ⟨w, hw, rfl⟩ | rfl⟩ := transact_drop_cases x s
    · exact .inl hd
    · exact .inr (.inl ⟨hd, hb, rest, .inl ⟨w, hev⟩⟩)
    · exact .inr (.inl ⟨hd, hb, rest, .inr (.inl ⟨w, hev⟩)⟩)
    · exact .inr (.inl ⟨hd, hb, rest, .inr (.inr ⟨b, v, hev⟩)⟩)
    · exact .inr (.inr ⟨hd, rest, .inl ⟨w, hw, hev⟩⟩)
    · exact .inr (.inr ⟨hd, rest, .inr (.inl hev)⟩)
  · exact .inr (.inr ⟨rfl, rest, .inr (.inr hev)⟩)

/-- Settles O53: of the three things a step can do to DROP, each clause leaves one possible. -/
theorem dropChangesOnlyByItsRule : Obligations.DropChangesOnlyByItsRule := by
  intro s t h
  obtain hd | ⟨hd, hset⟩ | ⟨hd, hclear⟩ := step_drop_cases h
  · exact ⟨fun h0 h1 => by simp [hd, h0] at h1, fun h1 h0 => by simp [hd, h1] at h0⟩
  · exact ⟨fun _ _ => hset, fun _ h0 => by simp [hd] at h0⟩
  · exact ⟨fun _ h1 => by simp [hd] at h1, fun _ _ => hclear⟩

theorem step_inLen_ne (h : step s = .next t) (hne : t.inLen ≠ s.inLen) :
    (s.state ≠ .busy ∧ ∃ rest, s.events = .host (.regw 2#3 t.inLen) :: rest) ∨
    ∃ rest, s.events = .host .reset :: rest ∨ s.events = .powerOn :: rest := by
  obtain ⟨es, rfl⟩ | ⟨-, -, es, rfl⟩ | ⟨x, rest, hev, rfl⟩ | ⟨rest, hev, -⟩ := step_forms h
  · exact absurd rfl hne
  · exact absurd (commit_inLen _ s) hne
  · obtain ⟨hb, hx⟩ | rfl := transact_inLen_ne hne
    · exact .inl ⟨hb, rest, hev.trans (congrArg (.host · :: rest) hx)⟩
    · exact .inr ⟨rest, .inl hev⟩
  · exact .inr ⟨rest, .inr hev⟩

theorem step_inByte_ne (h : step s = .next t) (hne : t.inByte a ≠ s.inByte a) :
    (s.state ≠ .busy ∧ a < s.inCap ∧ ∃ addr v rest, s.events = .host (.inw addr v) :: rest ∧ addr.toNat = a) ∨
    ∃ rest, s.events = .powerOn :: rest := by
  obtain ⟨es, rfl⟩ | ⟨-, -, es, rfl⟩ | ⟨x, rest, hev, rfl⟩ | ⟨rest, hev, -⟩ := step_forms h
  · exact absurd rfl hne
  · exact absurd (congrFun (inByte_congr (commit_inBuf _ s) (commit_powerOns _ s)) a) hne
  · obtain ⟨hb, ha, addr, v, rfl, haddr⟩ := transact_inByte_ne hne
    exact .inl ⟨hb, ha, addr, v, rest, hev, haddr⟩
  · exact .inr ⟨rest, hev⟩

/-- Settles O54. -/
theorem onlyTheHostChangesTheInput : Obligations.OnlyTheHostChangesTheInput :=
  fun _ _ h => ⟨step_inLen_ne h, fun _ => step_inByte_ne h⟩

/-- Settles O55: a commit reaches only bytes below 2 * IN_LEN, which the invariant keeps below 2 * IN_CAP while BUSY; of the
transactions only an aborting RESET reaches OUT_BUF at all. -/
theorem outputChangesOnlyByPerformOrReset : Obligations.OutputChangesOnlyByPerformOrReset := by
  intro s t hinv h a hne
  obtain ⟨es, rfl⟩ | ⟨hb, hev, es, rfl⟩ | ⟨x, rest, hev, rfl⟩ | ⟨rest, hev, -⟩ := step_forms h
  · exact absurd rfl hne
  · obtain ⟨-, -, -, -, hfit⟩ := hinv.status.busy hb
    have ha : a < 2 * s.inLen.toNat := by
      by_contra hge
      exact hne (outByte_commit_codecOf_of_le s.opL (Nat.le_of_not_lt hge))
    exact .inl ⟨hb, ha, by omega, hev.imp_right fun ⟨rest, hp⟩ => ⟨rest, .inl hp⟩⟩
  · obtain ⟨rfl, hb, hlen, hcap⟩ := transact_outByte_ne hne
    exact .inl ⟨hb, hlen, hcap, .inr ⟨rest, .inr hev⟩⟩
  · exact .inr ⟨rest, hev⟩

end Sys2Proof.Machine
end

section
/-! The codes and indices of the registers (R23, R26, R27). -/

namespace Sys2Proof

theorem RegName.ofIdx_idx (r : RegName) : RegName.ofIdx r.idx = r := by
  cases r <;> rfl

theorem RegName.idx_ofIdx (k : BitVec 3) : (RegName.ofIdx k).idx = k := by
  rcases regIndex_cases k with rfl | rfl | rfl | rfl | rfl | rfl | rfl | rfl <;> rfl

/-- Settles O4: the two maps are inverse; the rest is R23's table read off. -/
theorem registerIndicesNameRegisters : Obligations.RegisterIndicesNameRegisters :=
  ⟨RegName.ofIdx_idx, RegName.idx_ofIdx, rfl, rfl, rfl, rfl, rfl, rfl, rfl, rfl, rfl⟩

/-- Settles O11: R26's and R27's tables read off. -/
theorem statusCodesAreAsListed : Obligations.StatusCodesAreAsListed :=
  ⟨rfl, rfl, rfl, rfl, rfl, rfl, rfl, rfl, rfl⟩

end Sys2Proof
end

section
/-! What 20_memory.md says of every step: no access faults (R59), the order's next event always happens (R60), the input is
fixed while BUSY (R61), reads are repeatable (R58), and instances share no state (R66). -/

namespace Sys2Proof.Machine

/-! ## Every step answers a next state -/

/-- A command answers a next state, be it enabled or not, and whether or not its codec function fails. -/
theorem exec_answers (i : Instr) (s : State) : ∃ t, exec i s = .next t := by
  rw [exec_eq_performWith]
  by_cases hb : s.state = .busy
  · exact ⟨_, performWith_busy hb _⟩
  · exact ⟨_, performWith_not_busy hb _⟩

theorem applyEvent_answers (e : Event) (s : State) : ∃ t, applyEvent e s = .next t := by
  cases e with
  | host x => exact ⟨transact x s, rfl⟩
  | perform => exact exec_answers s.opL s
  | powerOn => exact ⟨powerOn s, rfl⟩

/-- Settles O22: with no event left the step is a command's, else it is the first event's, and both answer a next state. -/
theorem everyStepAnswersANextState : Obligations.EveryStepAnswersANextState := by
  intro s
  unfold step
  split
  · exact exec_answers s.opL s
  · exact applyEvent_answers ..

/-! ## One host transaction -/

/-- A transaction that happens takes its whole effect and leaves the coming events. -/
theorem occur_host (x : Transaction) (s : State) : occur (.host x) s = .next (transact x s) := rfl

theorem eq_transact_of_occur {x : Transaction} {s t : State} (h : occur (.host x) s = .next t) : t = transact x s :=
  Host.Outcome.next.inj (h.symm.trans (occur_host x s))

/-- While BUSY, a transaction other than RESET reaches nothing but DROP, what it returns and the count of draws. -/
theorem transact_of_busy {x : Transaction} {s : State} (hb : s.state = .busy) (hx : x ≠ .reset) :
    ∃ d r n, transact x s = { s with drop := d, resp := r, draws := n } := by
  obtain ⟨r, n, ht⟩ | ⟨-, -, ht⟩ | ⟨hnot, -⟩ | ⟨w, -, -, ht⟩ | ⟨hnot, -⟩ | ⟨hnot, -⟩ | ⟨hreset, -⟩ := transact_cases x s
  · exact ⟨s.drop, r, n, ht⟩
  · exact ⟨true, .none, s.draws, ht⟩
  · exact absurd hb hnot
  · exact ⟨false, .none, s.draws, ht⟩
  · exact absurd hb hnot
  · exact absurd hb hnot
  · exact absurd hreset hx

/-- Settles O56: none of the fields named is among the three a transaction can reach while BUSY. -/
theorem inputIsFixedWhileBusy : Obligations.InputIsFixedWhileBusy := by
  intro s t x hb hx h
  obtain ⟨d, r, n, ht⟩ := transact_of_busy hb hx
  obtain rfl := (eq_transact_of_occur h).trans ht
  exact ⟨hb, rfl, rfl, rfl, rfl, rfl⟩

/-! ## Reads -/

theorem hostOutr_of_not_busy {s : State} (hb : s.state ≠ .busy) (a : BitVec 32) :
    hostOutr a s = { s with resp := .byte (if s.outCap ≤ a.toNat then 0x00#8 else s.outByte a.toNat) } := by
  rw [hostOutr, if_neg hb]
  split <;> rfl

theorem readReg_set_resp (k : RegName) (q : Response) (s : State) : readReg k { s with resp := q } = readReg k s := by
  cases k <;> rfl

/-- What a read returns does not depend on what the last transaction returned, and that is all it changes. -/
theorem transact_read {x : Transaction} {s : State}
    (h : (∃ k, x = .regr k) ∨ (∃ a, x = .inr a) ∨ (s.state ≠ .busy ∧ ∃ a, x = .outr a)) :
    ∃ r, ∀ q, transact x { s with resp := q } = { s with resp := r } := by
  obtain ⟨k, rfl⟩ | ⟨a, rfl⟩ | ⟨hb, a, rfl⟩ := h
  · refine ⟨.word (readReg (RegName.ofIdx k) s), fun q => ?_⟩
    rw [← readReg_set_resp _ q s]
    rfl
  · exact ⟨.byte (if a.toNat < s.inCap then s.inByte a.toNat else 0x00#8), fun _ => rfl⟩
  · exact ⟨.byte (if s.outCap ≤ a.toNat then 0x00#8 else s.outByte a.toNat),
      fun q => hostOutr_of_not_busy (s := { s with resp := q }) hb a⟩

/-- Settles O16: the second read starts from a state that differs from the first one's in the last response only. -/
theorem readsAreRepeatable : Obligations.ReadsAreRepeatable := by
  intro s t u x hread ht hu
  obtain ⟨r, hr⟩ := transact_read hread
  obtain rfl : t = { s with resp := r } := (eq_transact_of_occur ht).trans (hr s.resp)
  exact ⟨rfl, (eq_transact_of_occur hu).trans (hr r)⟩

/-! ## Instances -/

/-- All that a step of one instance can answer: the same system where there is no such instance, else the system with that
instance's next state in its place. -/
theorem stepInstance_cases {k : Nat} {sys sys' : System} (h : System.stepInstance k sys = .next sys') :
    (sys[k]? = none ∧ sys' = sys) ∨ ∃ s t, sys[k]? = some s ∧ step s = .next t ∧ sys' = sys.set k t := by
  unfold System.stepInstance at h
  split at h
  · exact .inl ⟨‹_›, (Host.Outcome.next.inj h).symm⟩
  · split at h
    · exact .inr ⟨_, _, ‹_›, ‹_›, (Host.Outcome.next.inj h).symm⟩
    · cases h
    · cases h

/-- Settles O58: setting one member of a list keeps its length and every other member. -/
theorem instancesShareNoState : Obligations.InstancesShareNoState := by
  intro k sys sys' h
  obtain ⟨-, rfl⟩ | ⟨s, t, -, -, rfl⟩ := stepInstance_cases h
  · exact ⟨rfl, fun _ _ => rfl⟩
  · exact ⟨List.length_set, fun j hj => List.getElem?_set_ne hj.symm⟩

end Sys2Proof.Machine
end

section
/-! The decoder's whole graph (R71 to R73): a word decodes to an instruction exactly when it is its encoding, and the words
above 3 are the illegal ones. -/

namespace Sys2Proof

/-! ## Encoding -/

/-- The four members of the family RoundTrip, put together. -/
theorem wf_and_decode_encode (i : Instr) : i.wf = true ∧ decode (encode i) = .ok i := by
  cases i with
  | pack => exact Laws.RoundTrip.pack
  | unpack => exact Laws.RoundTrip.unpack
  | escape => exact Laws.RoundTrip.escape
  | unescape => exact Laws.RoundTrip.unescape

theorem decode_encode (i : Instr) : decode (encode i) = .ok i := (wf_and_decode_encode i).2

/-- The two fields are the whole word (R71). -/
theorem rsvdField_append_opField (w : Word) : rsvdField w ++ opField w = w := by
  refine BitVec.eq_of_toNat_eq ?_
  rw [BitVec.toNat_append, ← Nat.shiftLeft_add_eq_or_of_lt (opField w).isLt, Nat.shiftLeft_eq, opField_toNat,
    rsvdField_toNat]
  omega

theorem eq_encode_of_fields {w : Word} {i : Instr} (hr : rsvdField w = 0#29) (ho : opField w = opCode i) : w = encode i := by
  rw [encode, ← hr, ← ho, rsvdField_append_opField]

/-- Every value of OP below 4 is a command's. -/
theorem eq_opCode_or_four_le (o : BitVec 3) : (∃ i, o = opCode i) ∨ 4 ≤ o.toNat := by
  obtain h | h := Nat.lt_or_ge o.toNat 4
  · obtain rfl | rfl | rfl | rfl : o = 0#3 ∨ o = 1#3 ∨ o = 2#3 ∨ o = 3#3 := by bv_omega
    · exact .inl ⟨.pack, rfl⟩
    · exact .inl ⟨.unpack, rfl⟩
    · exact .inl ⟨.escape, rfl⟩
    · exact .inl ⟨.unescape, rfl⟩
  · exact .inr h

theorem encode_toNat_le (i : Instr) : (encode i).toNat ≤ 3 := by
  cases i <;> decide

/-! ## Decoding -/

theorem decode_of_rsvd {w : Word} (hr : rsvdField w ≠ 0#29) : decode w = .error .reservedBits :=
  if_neg hr

theorem decode_of_unassigned {w : Word} (hr : rsvdField w = 0#29) (ho : 4 ≤ (opField w).toNat) :
    decode w = .error .unassignedOp := by
  have hne : ∀ k : BitVec 3, k.toNat < 4 → opField w ≠ k := by
    rintro k hk rfl
    omega
  rw [decode, if_pos hr, if_neg (hne _ (by decide)), if_neg (hne _ (by decide)), if_neg (hne _ (by decide)),
    if_neg (hne _ (by decide))]

/-- All that the decoder can answer: the instruction whose encoding the word is, or that one of R73's two conditions holds. -/
theorem decode_cases (w : Word) :
    (∃ i, w = encode i ∧ decode w = .ok i) ∨
    ((4 ≤ (opField w).toNat ∨ rsvdField w ≠ 0#29) ∧ ∃ r, decode w = .error r) := by
  by_cases hr : rsvdField w = 0#29
  · obtain ⟨i, ho⟩ | ho := eq_opCode_or_four_le (opField w)
    · obtain rfl := eq_encode_of_fields hr ho
      exact .inl ⟨i, rfl, decode_encode i⟩
    · exact .inr ⟨.inl ho, _, decode_of_unassigned hr ho⟩
  · exact .inr ⟨.inr hr, _, decode_of_rsvd hr⟩

theorem decode_eq_ok_iff (w : Word) (i : Instr) : decode w = .ok i ↔ w = encode i := by
  constructor
  · intro h
    obtain ⟨j, hw, hj⟩ | ⟨-, r, hr⟩ := decode_cases w
    · cases hj.symm.trans h
      exact hw
    · cases hr.symm.trans h
  · rintro rfl
    exact decode_encode i

/-- R73's two conditions on the fields are one on the word. -/
theorem illegal_fields_iff (w : Word) : (4 ≤ (opField w).toNat ∨ rsvdField w ≠ 0#29) ↔ 3 < w.toNat := by
  rw [Ne, ← BitVec.toNat_inj, rsvdField_toNat, opField_toNat, BitVec.toNat_ofNat]
  omega

theorem decode_of_three_lt {w : Word} (h : 3 < w.toNat) : ∃ r, decode w = .error r := by
  obtain ⟨i, rfl, -⟩ | ⟨-, hr⟩ := decode_cases w
  · have := encode_toNat_le i
    omega
  · exact hr

/-- Settles O1: the map's four words are the four encodings. -/
theorem commandWordIffInstruction : Obligations.CommandWordIffInstruction := by
  intro w i
  rw [decode_eq_ok_iff]
  cases i <;> simp [encode, opCode]

/-- Settles O3: the table's words are the four encodings, so the round trip decodes them too. -/
theorem tableWordsDecodeAndEncode : Obligations.TableWordsDecodeAndEncode :=
  ⟨decode_encode .pack, decode_encode .unpack, decode_encode .escape, decode_encode .unescape, wf_and_decode_encode⟩

end Sys2Proof
end

section
/-! REGW CMD (R102, R103), and the illegal command words of R73. -/

namespace Sys2Proof.Machine

theorem transact_regw_cmd_of_busy {s : State} (hb : s.state = .busy) (w : Word) :
    transact (.regw 0#3 w) s = { s with drop := true, resp := .none } := by
  have h : writeReg (RegName.ofIdx 0#3) w s = setDrop s := if_pos hb
  rw [transact, hostRegw, h]
  rfl

theorem transact_regw_cmd_of_not_busy {s : State} (hb : s.state ≠ .busy) (w : Word) :
    transact (.regw 0#3 w) s = { issue w s with resp := .none } := by
  have h : writeReg (RegName.ofIdx 0#3) w s = issue w s := if_neg hb
  rw [transact, hostRegw, h]

theorem issue_of_decode_error {w : Word} {r : DecodeReject} (h : decode w = .error r) (s : State) :
    issue w s = enterError .illegalCmd 0 0#8 (clearRecord s) := by
  rw [issue, h]

/-- Settles O2: the decoder turns an illegal word away, so its issue is the first error of R103. -/
theorem illegalWordRejectedOrDropped : Obligations.IllegalWordRejectedOrDropped := by
  refine fun w s => ⟨illegal_fields_iff w, fun hw => ⟨fun hb => ?_, fun hb => ?_⟩⟩
  · obtain ⟨r, hr⟩ := decode_of_three_lt hw
    rw [occur_host, transact_regw_cmd_of_not_busy hb, issue_of_decode_error hr]
    rfl
  · rw [occur_host, transact_regw_cmd_of_busy hb]

end Sys2Proof.Machine
end

section
/-! The pseudo-instructions `load` and `copyback` (R79) while no command is in flight. Each INW overwrites what the OUTR before it
returned, so a `copyback` leaves the state that a `load` of the same bytes leaves. -/

namespace Sys2Proof.Machine

variable {s : State}

/-! ## The single transactions -/

theorem transact_regw_inLen_of_not_busy (hb : s.state ≠ .busy) (w : Word) :
    transact (.regw RegName.inLen.idx w) s = { s with inLen := w, resp := .none } := by
  have h : writeReg (RegName.ofIdx RegName.inLen.idx) w s = { s with inLen := w } := if_neg hb
  rw [transact, hostRegw, h]

theorem transact_inw_of_lt (hb : s.state ≠ .busy) {a : BitVec 32} (ha : a.toNat < s.inCap) (v : Byte) :
    transact (.inw a v) s = { s.writeIn a.toNat v with resp := .none } := by
  rw [transact, hostInw, if_neg hb, if_pos ha]

theorem transact_inw_state (a : BitVec 32) (v : Byte) (s : State) : (transact (.inw a v) s).state = s.state := by
  rw [transact, hostInw]
  split
  · rfl
  · split <;> rfl

theorem transact_inw_set_resp (a : BitVec 32) (v : Byte) (s : State) (q : Response) :
    transact (.inw a v) { s with resp := q } = transact (.inw a v) s := by
  simp only [transact, hostInw]
  split
  · rfl
  · split <;> rfl

theorem transact_outr_inw_of_not_busy (hb : s.state ≠ .busy) (a b : BitVec 32) (v : Byte) :
    transact (.inw b v) (transact (.outr a) s) = transact (.inw b v) s :=
  (congrArg (transact (.inw b v)) (hostOutr_of_not_busy hb a)).trans (transact_inw_set_resp b v s _)

/-! ## Their runs -/

/-- The values written need not be those the reads return. -/
theorem transactAll_copyAll (hb : s.state ≠ .busy) (a : Nat) (vs : List Byte) :
    transactAll (copyAll a vs) s = transactAll (inwAll a vs) s := by
  induction vs generalizing a s with
  | nil => rfl
  | cons v vs ih =>
    simp only [copyAll, inwAll, transactAll_cons, transact_outr_inw_of_not_busy hb]
    exact ih ((transact_inw_state _ v s).symm ▸ hb) (a + 1)

/-- Writes that fit the buffer are the loop of `Memory.writeFrom`. -/
theorem transactAll_inwAll (hb : s.state ≠ .busy) (hcap : s.inCap ≤ 2 ^ 32) {a : Nat} {bs : List Byte}
    (hfit : a + bs.length ≤ s.inCap) :
    ∃ r, transactAll (inwAll a bs) s = { s with inBuf := Memory.writeFrom a bs s.inBuf, resp := r } := by
  induction bs generalizing a s with
  | nil => exact ⟨s.resp, rfl⟩
  | cons b bs ih =>
    rw [List.length_cons] at hfit
    have ha : (BitVec.ofNat 32 a).toNat = a := (BitVec.toNat_ofNat ..).trans (Nat.mod_eq_of_lt (by omega))
    rw [inwAll, transactAll_cons, transact_inw_of_lt hb (by omega), ha]
    exact ih (s := { s.writeIn a b with resp := .none }) hb hcap (by simp only [writeIn_inCap]; omega)

/-! ## The input they leave -/

/-- The state in which `bs` is the next command's input. -/
def State.withInput (bs : List Byte) (s : State) : State :=
  { s with inBuf := Memory.writeFrom 0 bs s.inBuf, inLen := BitVec.ofNat 32 bs.length, resp := .none }

theorem inByte_withInput (bs : List Byte) (a : Nat) (s : State) :
    (s.withInput bs).inByte a = if a < bs.length then byteAt bs a else s.inByte a := by
  simp only [State.inByte, State.withInput, lookup_writeFrom, Nat.zero_le, true_and, Nat.zero_add, Nat.sub_zero, byteAt]
  split <;> rfl

theorem inLen_withInput {bs : List Byte} (h : bs.length < 2 ^ 32) (s : State) : (s.withInput bs).inLen.toNat = bs.length :=
  (BitVec.toNat_ofNat ..).trans (Nat.mod_eq_of_lt h)

theorem input_withInput {bs : List Byte} (h : bs.length < 2 ^ 32) (s : State) : (s.withInput bs).input = bs := by
  refine List.ext_getElem (by rw [length_input, inLen_withInput h]) fun i hi hbs => ?_
  simp [State.input, inByte_withInput, hbs, byteAt]

theorem transactAll_load (hb : s.state ≠ .busy) (hcap : s.inCap ≤ 2 ^ 32) {bs : List Byte} (hfit : bs.length ≤ s.inCap) :
    transactAll (Pseudo.expand (.load bs)) s = s.withInput bs := by
  obtain ⟨r, hr⟩ := transactAll_inwAll hb hcap (a := 0) (bs := bs) (by omega)
  rw [Pseudo.expand, transactAll_append, hr]
  exact transact_regw_inLen_of_not_busy (s := { s with inBuf := _, resp := r }) hb _

theorem transactAll_copyback (hb : s.state ≠ .busy) (hcap : s.inCap ≤ 2 ^ 32) {vs : List Byte} (hfit : vs.length ≤ s.inCap) :
    transactAll (Pseudo.expand (.copyback vs)) s = s.withInput vs := by
  have hread : (transact (.regr RegName.outLen.idx) s).state ≠ .busy := hb
  rw [Pseudo.expand, List.cons_append, transactAll_cons, transactAll_append, transactAll_copyAll hread, ← transactAll_append]
  exact transactAll_load hread hcap hfit

/-! ## In the range of R9 -/

theorem lt_of_capacityOk {n c : Nat} (hc : capacityOk c = true) (h : n ≤ c) : n < 2 ^ 32 := by
  simp only [capacityOk, Bool.and_eq_true, decide_eq_true_eq] at hc
  omega

/-- Settles O59: the writes fill IN_BUF from 0 on, in the range the address field can spell. -/
theorem loadMakesTheBytesTheInput : Obligations.LoadMakesTheBytesTheInput := by
  intro s bytes hb hc hfit
  have hlen := lt_of_capacityOk hc hfit
  exact ⟨s.withInput bytes, transactAll_load hb (lt_of_capacityOk hc le_rfl).le hfit, input_withInput hlen s,
    inLen_withInput hlen s, rfl, fun a ha => (inByte_withInput bytes a s).trans (if_neg ha.not_gt)⟩

/-- Settles O60: the copied bytes are OUT_LEN in number. -/
theorem copybackMakesTheResultTheInput : Obligations.CopybackMakesTheResultTheInput := by
  intro s hb hc hfit
  have hout := length_output s
  have hlen := lt_of_capacityOk hc (hout.trans_le hfit)
  refine ⟨s.withInput s.output, transactAll_copyback hb (lt_of_capacityOk hc le_rfl).le (hout.trans_le hfit),
    input_withInput hlen s, ?_, rfl, fun a ha => (inByte_withInput s.output a s).trans (if_neg (by omega))⟩
  exact BitVec.eq_of_toNat_eq ((inLen_withInput hlen s).trans hout)

end Sys2Proof.Machine
end

section
/-! Register transactions (R102 to R108): what one REGW or REGR does, register by register. -/

namespace Sys2Proof.Machine

/-! ## The issue (R103) -/

theorem issue_of_lt {w : Word} {i : Instr} {s : State} (h : decode w = .ok i) (hlen : s.inCap < s.inLen.toNat) :
    issue w s = enterError .badLength 0 0#8 (clearRecord s) := by
  simp only [issue, h, if_pos hlen]

theorem issue_of_le {w : Word} {i : Instr} {s : State} (h : decode w = .ok i) (hlen : s.inLen.toNat ≤ s.inCap) :
    issue w s = { clearRecord s with opL := i, state := .busy } := by
  simp only [issue, h, if_neg hlen.not_gt]

/-- Settles O5: the decoder's answer and the comparison of IN_LEN with IN_CAP choose among the issue's three ends. -/
theorem issueStartsOrRejectsTheCommand : Obligations.IssueStartsOrRejectsTheCommand := by
  intro s w hb
  simp only [occur_host, transact_regw_cmd_of_not_busy hb]
  refine ⟨fun r hr => ?_, fun i hi hlen => ?_, fun i hi hlen => ?_⟩
  · rw [issue_of_decode_error hr]
    rfl
  · rw [issue_of_lt hi hlen]
    rfl
  · rw [issue_of_le hi hlen]
    rfl

/-! ## The other writes -/

/-- Settles O6. -/
theorem commandWriteWhileBusyOnlySetsDrop : Obligations.CommandWriteWhileBusyOnlySetsDrop :=
  fun _ w hb => congrArg Host.Outcome.next (transact_regw_cmd_of_busy hb w)

/-- The write-1-to-clear of R29 as one expression for DROP. -/
theorem writeStatus_eq (w : Word) (s : State) : writeStatus w s = { s with drop := s.drop && !w.getLsbD 2 } := by
  unfold writeStatus
  cases w.getLsbD 2
  · rw [Bool.not_false, Bool.and_true]
    rfl
  · rw [Bool.not_true, Bool.and_false]
    rfl

/-- Settles O7. -/
theorem statusWriteClearsOnlyDrop : Obligations.StatusWriteClearsOnlyDrop := by
  intro s w
  have h : writeReg (RegName.ofIdx 1#3) w s = writeStatus w s := rfl
  rw [occur_host, transact, hostRegw, h, writeStatus_eq]

theorem transact_regw_inLen_of_busy {s : State} (hb : s.state = .busy) (w : Word) :
    transact (.regw 2#3 w) s = { s with drop := true, resp := .none } := by
  have h : writeReg (RegName.ofIdx 2#3) w s = setDrop s := if_pos hb
  rw [transact, hostRegw, h]
  rfl

/-- Settles O8. -/
theorem inLenWriteStoresOrIsDropped : Obligations.InLenWriteStoresOrIsDropped :=
  fun _ w => ⟨fun hb => congrArg Host.Outcome.next (transact_regw_inLen_of_busy hb w),
    fun hb => congrArg Host.Outcome.next (transact_regw_inLen_of_not_busy hb w)⟩

/-- The registers from index 3 on take no writes (R34, R107). -/
theorem writeReg_of_three_le {k : BitVec 3} (hk : 3 ≤ k.toNat) (w : Word) (s : State) :
    writeReg (RegName.ofIdx k) w s = s := by
  obtain ⟨rfl, -⟩ | ⟨rfl, -⟩ | ⟨rfl, -⟩ | ⟨rfl, -⟩ | ⟨rfl, -⟩ | h := writeReg_cases k w s
  case inr.inr.inr.inr.inr => exact h
  all_goals exact absurd hk (by decide)

/-- Settles O9. -/
theorem readOnlyRegisterWritesDoNothing : Obligations.ReadOnlyRegisterWritesDoNothing := by
  intro s k w hk
  rw [occur_host, transact, hostRegw, writeReg_of_three_le hk]

/-! ## Reads -/

/-- R25's fields side by side are R108's sum of the shifted fields: each bit lies in one field only. -/
theorem statusWord_eq_or_shifts (s : State) :
    s.statusWord = (s.errData.setWidth 32 <<< 8) ||| (s.err.code.setWidth 32 <<< 4) |||
      ((BitVec.ofBool s.drop).setWidth 32 <<< 2) ||| s.state.code.setWidth 32 := by
  refine BitVec.eq_of_getLsbD_eq fun i hi => ?_
  simp only [State.statusWord, BitVec.getLsbD_append, BitVec.getLsbD_or, BitVec.getLsbD_shiftLeft, BitVec.getLsbD_setWidth]
  grind

/-- Settles O10: all but STATUS are R108's table read off. -/
theorem registerReadReturnsTheRegister : Obligations.RegisterReadReturnsTheRegister := by
  intro s
  refine ⟨rfl, ?_, rfl, rfl, rfl, rfl, rfl, rfl⟩
  rw [← statusWord_eq_or_shifts]
  rfl

end Sys2Proof.Machine
end

section
/-! Buffer transactions (R110 to R113). -/

namespace Sys2Proof.Machine

variable {s : State} {a : BitVec 32}

theorem transact_inw_of_busy (hb : s.state = .busy) (a : BitVec 32) (v : Byte) :
    transact (.inw a v) s = { s with drop := true, resp := .none } := by
  rw [transact, hostInw, if_pos hb]
  rfl

theorem transact_inw_of_le (hb : s.state ≠ .busy) (ha : s.inCap ≤ a.toNat) (v : Byte) :
    transact (.inw a v) s = { s with resp := .none } := by
  rw [transact, hostInw, if_neg hb, if_neg ha.not_gt]

/-- Settles O13: in range, the byte read after the write is the one written exactly at its index. -/
theorem inputWriteStoresOneByte : Obligations.InputWriteStoresOneByte := by
  intro s a v
  simp only [occur_host]
  refine ⟨fun hb => ?_, fun hb ha => ?_, fun hb ha => ?_⟩
  · rw [transact_inw_of_busy hb]
  · rw [transact_inw_of_le hb ha]
  · rw [transact_inw_of_lt hb ha]
    exact ⟨_, rfl, rfl, (inByte_writeIn a.toNat a.toNat v s).trans (if_pos rfl),
      fun b hne => (inByte_writeIn a.toNat b v s).trans (if_neg hne)⟩

/-- Settles O14. -/
theorem inputReadReturnsTheStoredByte : Obligations.InputReadReturnsTheStoredByte := by
  intro s a
  simp only [occur_host, transact, hostInr]
  exact ⟨fun ha => by rw [if_pos ha], fun ha => by rw [if_neg ha.not_gt]⟩

theorem transact_outr_of_le (ha : 2 * s.inCap ≤ a.toNat) : transact (.outr a) s = { s with resp := .byte 0x00#8 } :=
  if_pos ha

theorem transact_outr_of_busy (ha : a.toNat < 2 * s.inCap) (hb : s.state = .busy) :
    transact (.outr a) s = { s with resp := .byte (Config.draw s.draws), draws := s.draws + 1 } :=
  (if_neg ha.not_ge).trans (if_pos hb)

theorem transact_outr_of_not_busy (ha : a.toNat < 2 * s.inCap) (hb : s.state ≠ .busy) :
    transact (.outr a) s = { s with resp := .byte (s.outByte a.toNat) } :=
  (if_neg ha.not_ge).trans (if_neg hb)

/-- Settles O15: the byte that no rule states is a draw. -/
theorem outputReadReturnsTheStoredByte : Obligations.OutputReadReturnsTheStoredByte :=
  fun _ _ => ⟨fun ha => congrArg Host.Outcome.next (transact_outr_of_le ha),
    fun ha hb => ⟨_, congrArg Host.Outcome.next (transact_outr_of_busy ha hb)⟩,
    fun ha hb => congrArg Host.Outcome.next (transact_outr_of_not_busy ha hb)⟩

/-- Settles O17: the transaction's whole effect is to return nothing. -/
theorem outputWriteHasNoEffect : Obligations.OutputWriteHasNoEffect :=
  fun s a v => occur_host (.outw a v) s

end Sys2Proof.Machine
end

section
/-! The block's own step (R114, R115): PERFORM as an event, after the issue that latched its operation, and as the end of
every BUSY period. -/

namespace Sys2Proof.Machine

variable {s t : State} {rest : List Event}

/-! ## One step, by its event -/

theorem step_of_nil (h : s.events = []) : step s = exec s.opL s := by
  rw [step, h]
  rfl

theorem step_of_perform (h : s.events = .perform :: rest) : step s = exec s.opL { s with events := rest } := by
  rw [step, h]
  rfl

theorem step_of_host {x : Transaction} (h : s.events = .host x :: rest) :
    step s = .next { transact x s with events := rest } := by
  rw [step, h, ← transact_events]
  rfl

theorem exec_of_not_busy (hb : s.state ≠ .busy) (i : Instr) : exec i s = .next s :=
  (exec_eq_performWith i s).trans (performWith_not_busy hb _)

/-- Settles O18. -/
theorem stepPerformsTheLatchedCommand : Obligations.StepPerformsTheLatchedCommand :=
  ⟨fun _ _ => step_of_perform, fun _ => step_of_nil, fun _ i hb => exec_of_not_busy hb i⟩

/-! ## A command word issued or placed -/

/-- Settles O19: the issue latches the decoded operation and leaves PERFORM as the next event. -/
theorem issuedWordRunsAsItsInstruction : Obligations.IssuedWordRunsAsItsInstruction := by
  intro s w i rest hev hb hlen hw
  refine ⟨_, ?_, rfl, step_of_perform rfl⟩
  rw [step_of_host hev, transact_regw_cmd_of_not_busy hb, issue_of_le hw hlen]
  rfl

theorem decode_of_decodeTableWord {w : Nat} {i : Instr} (h : decodeTableWord 32 w = some i) :
    decode (BitVec.ofNat 32 (w % 2 ^ 32)) = .ok i := by
  rw [decodeTableWord, if_pos le_rfl] at h
  split at h
  · cases h
    assumption
  · cases h

/-- A legal word whose command fits stands issued, whatever STATE the block was in (log 8). -/
theorem placeCommand_of_le {w : Word} {i : Instr} (hw : decode w = .ok i) (hlen : s.inLen.toNat ≤ s.inCap) :
    placeCommand w s = { clearRecord s with opL := i, state := .busy, events := .perform :: s.events } := by
  by_cases hb : s.state = .busy
  · have hissued : issue w { s with state := .idle } = { clearRecord s with opL := i, state := .busy } :=
      issue_of_le hw hlen
    simp only [placeCommand, if_pos hb, hissued, if_true]
  · simp only [placeCommand, if_neg hb, issue_of_le hw hlen, if_true]

/-- Settles O20: the placed word's PERFORM is the next event. -/
theorem placedWordIsRunByTheNextStep : Obligations.PlacedWordIsRunByTheNextStep := by
  intro s w i hw hlen
  rw [State.withFetchWord, placeCommand_of_le (decode_of_decodeTableWord hw) hlen]
  exact step_of_perform rfl

/-! ## Leaving BUSY -/

theorem commit_state_ne_busy (r : CodecResult) (s : State) : (commit r s).state ≠ .busy := by
  cases r <;> simp [commit]

/-- After PERFORM, enabled or not, the block is not BUSY. -/
theorem not_busy_of_exec {i : Instr} (h : exec i s = .next t) : t.state ≠ .busy := by
  obtain ⟨-, rfl⟩ | ⟨hb, rfl⟩ := exec_cases h
  · exact commit_state_ne_busy _ s
  · exact hb

theorem exec_keeps_events {i : Instr} (h : exec i s = .next t) : t.events = s.events := by
  obtain ⟨-, rfl⟩ | ⟨-, rfl⟩ := exec_cases h
  · exact commit_keeps_events ..
  · rfl

/-- A step takes the first coming event and leaves the others. -/
theorem step_consumes_event (h : step s = .next t) {e : Event} (hev : s.events = e :: rest) : t.events = rest := by
  obtain ⟨hnil, -⟩ | ⟨e', rest', hev', ha⟩ := step_cases h
  · exact absurd (hnil.symm.trans hev) nofun
  · obtain ⟨rfl, rfl⟩ := List.cons.inj (hev.symm.trans hev')
    obtain ⟨x, -, rfl⟩ | ⟨-, he⟩ | ⟨-, rfl⟩ := applyEvent_cases ha
    · exact congrArg State.events (transact_events x s rest)
    · exact exec_keeps_events he
    · rfl

/-- Settles O21, by induction on the coming events: the step after the last of them is a PERFORM. -/
theorem blockEventuallyLeavesBusy : Obligations.BlockEventuallyLeavesBusy := by
  intro s
  induction hev : s.events generalizing s with
  | nil =>
    obtain ⟨t, ht⟩ := exec_answers s.opL s
    exact ⟨t, run_succ Sys2Proof.core 0 s t ((step_of_nil hev).trans ht), not_busy_of_exec ht⟩
  | cons e rest ih =>
    obtain ⟨t, ht⟩ := everyStepAnswersANextState s
    obtain ⟨u, hu, hb⟩ := ih t (step_consumes_event ht hev)
    exact ⟨u, (run_succ Sys2Proof.core _ s t ht).trans hu, hb⟩

end Sys2Proof.Machine
end

section
/-! The outcome of a command (R120): what PERFORM leaves of the registers and the result is one function of what the codec
function gives, whatever else the state holds. -/

namespace Sys2Proof.Machine

/-- What the host can see of a command that has ended: STATE, the error record, OUT_LEN and the result bytes. -/
structure CommandOutcome where
  state : OpState
  err : ErrCode
  errData : Byte
  errPos : Word
  outLen : Word
  output : List Byte

def State.outcome (s : State) : CommandOutcome :=
  ⟨s.state, s.err, s.errData, s.errPos, s.outLen, s.output⟩

/-- The outcome that a codec's result stands for (R116, R117). -/
def CodecResult.outcome : CodecResult → CommandOutcome
  | .ok y => ⟨.done, .none, 0#8, 0#32, BitVec.ofNat 32 y.length, y⟩
  | .err e pos data => ⟨.error, e, data, BitVec.ofNat 32 pos, 0#32, []⟩

variable {s t : State}

/-- A success leaves the error record as it was, and that is clear in every BUSY state (R40). -/
theorem outcome_commitOk (h : StatusInv s) (hb : s.state = .busy) {y : List Byte} (hy : y.length < 2 ^ 32) :
    (commitOk y s).outcome = (CodecResult.ok y).outcome := by
  obtain ⟨herr, hdata, hpos, -, -⟩ := h.busy hb
  simp only [State.outcome, CodecResult.outcome, commitOk_state, commitOk_err, commitOk_errData, commitOk_errPos,
    commitOk_outLen, output_commitOk y s hy, herr, hdata, hpos]

/-- A failure commits no result bytes: the draws of R117 lie below ERR_POS, and OUT_LEN is 0. -/
theorem outcome_commitErr (e : ErrCode) (p : Nat) (d : Byte) (s : State) :
    (commitErr e p d s).outcome = (CodecResult.err e p d).outcome := rfl

theorem le_of_capacityOk {c : Nat} (hc : capacityOk c = true) : c ≤ 2 ^ 30 :=
  of_decide_eq_true ((Bool.and_eq_true _ _).mp hc).2

/-- Under the invariant OUT_LEN can spell the length of every result, since that is at most 2 * IN_CAP (R10). -/
theorem outcome_exec (h : Inv s) (hb : s.state = .busy) {i : Instr} (hexec : exec i s = .next t) :
    t.outcome = (codecOf i s.input).outcome := by
  obtain ⟨-, -, -, -, hfit⟩ := h.status.busy hb
  have hcap := le_of_capacityOk h.capacity
  obtain ⟨-, rfl⟩ | ⟨hnot, -⟩ := exec_cases hexec
  · obtain ⟨y, hr, hy⟩ | ⟨-, p, hr, -⟩ | ⟨-, p, c, hr, -⟩ := codecOf_cases i s.input <;> rw [hr]
    · rw [length_input] at hy
      exact outcome_commitOk h.status hb (by omega)
    · exact outcome_commitErr ..
    · exact outcome_commitErr ..
  · exact absurd hb hnot

/-- Settles O32: both outcomes are that of the codec function's result on the one input. -/
theorem outcomeDependsOnTheInputAlone : Obligations.OutcomeDependsOnTheInputAlone := by
  intro i s s' t t' h h' hb hb' hinput hexec hexec'
  have heq : t.outcome = t'.outcome := by rw [outcome_exec h hb hexec, outcome_exec h' hb' hexec', hinput]
  simpa only [State.outcome, CommandOutcome.mk.injEq] using heq

end Sys2Proof.Machine
end

section
/-! The closed forms of PACK and UNPACK (R135, R138) as equations of bit streams, and the laws of the two functions that follow
from them (R132, R136, R139 to R143). -/

namespace Sys2Proof.Machine

/-! ## The cursor -/

theorem advMany_cursorAt (top k p : Nat) : advMany top k (cursorAt top p) = cursorAt top (p + k) := by
  induction k generalizing p with
  | zero => rfl
  | succ k ih => rw [advMany, adv_cursorAt, ih, Nat.add_assoc, Nat.add_comm 1 k]

/-- Settles O33: each advance moves the cursor by one stream position. -/
theorem cursorStandsAtQuotientAndRemainder : Obligations.CursorStandsAtQuotientAndRemainder := by
  intro top k
  have h := advMany_cursorAt top k 0
  rwa [cursorAt_zero, Nat.zero_add] at h

/-! ## Sizes -/

theorem eight_mul_le_packLen (n : Nat) : 8 * n ≤ 7 * packLen n := by
  unfold packLen
  omega

theorem eight_mul_unpackLen_le (m : Nat) : 8 * unpackLen m ≤ 7 * m := by
  unfold unpackLen
  omega

theorem padding_le_six (n : Nat) : 7 * packLen n - 8 * n ≤ 6 := by
  unfold packLen
  omega

theorem unpackLen_packLen (n : Nat) : unpackLen (packLen n) = n := by
  unfold unpackLen packLen
  omega

theorem packLen_mod_eight_ne_one (n : Nat) : packLen n % 8 ≠ 1 := by
  unfold packLen
  omega

theorem trailing_le_seven (m : Nat) : 7 * m - 8 * unpackLen m ≤ 7 := by
  unfold unpackLen
  omega

theorem trailing_eq_seven_iff (m : Nat) : 7 * m - 8 * unpackLen m = 7 ↔ m % 8 = 1 := by
  unfold unpackLen
  omega

theorem packLen_unpackLen_of_ne {m : Nat} (h : m % 8 ≠ 1) : packLen (unpackLen m) = m := by
  have hle := trailing_le_seven m
  have hne := mt (trailing_eq_seven_iff m).mp h
  have hfit := eight_mul_unpackLen_le m
  unfold packLen
  omega

theorem packLen_unpackLen_of_eq {m : Nat} (h : m % 8 = 1) : packLen (unpackLen m) = m - 1 := by
  have hseven := (trailing_eq_seven_iff m).mpr h
  unfold packLen
  omega

theorem packLen_unpackLen_eq_iff (m : Nat) : packLen (unpackLen m) = m ↔ m % 8 ≠ 1 :=
  ⟨fun h => h ▸ packLen_mod_eight_ne_one _, packLen_unpackLen_of_ne⟩

/-- Settles O38: a length that is not 1 modulo 8 is the packed length of its own unpacked length. -/
theorem packedLengthsAreNotOneModEight : Obligations.PackedLengthsAreNotOneModEight := fun m =>
  ⟨⟨fun ⟨n, hn⟩ => hn ▸ packLen_mod_eight_ne_one n, fun h => ⟨unpackLen m, packLen_unpackLen_of_ne h⟩⟩,
    packLen_unpackLen_eq_iff m, packLen_unpackLen_of_eq⟩

/-! ## Bytes and streams -/

theorem byteAt_of_lt {x : List Byte} {j : Nat} (h : j < x.length) : byteAt x j = x[j] :=
  List.getD_eq_getElem _ _ h

theorem byteAt_of_le {x : List Byte} {j : Nat} (h : x.length ≤ j) : byteAt x j = 0#8 :=
  List.getD_eq_default _ _ h

theorem bitStream_mul_add (x : Nat → Byte) (i : Nat) {q : Nat} (hq : q < 8) :
    bitStream x (8 * i + q) = (x i).getLsbD (7 - q) := by
  rw [bitStream, Nat.mul_add_div (by decide), Nat.div_eq_of_lt hq, Nat.mul_add_mod, Nat.mod_eq_of_lt hq, Nat.add_zero]

theorem sevenBitStream_mul_add (x : Nat → Byte) (j : Nat) {r : Nat} (hr : r < 7) :
    sevenBitStream x (7 * j + r) = (x j).getLsbD (6 - r) := by
  rw [sevenBitStream, Nat.mul_add_div (by decide), Nat.div_eq_of_lt hr, Nat.mul_add_mod, Nat.mod_eq_of_lt hr, Nat.add_zero]

/-- A buffer is its bit stream. -/
theorem eq_of_bitStream_eq {x y : List Byte} (hl : x.length = y.length)
    (h : ∀ k < 8 * x.length, bitStream (byteAt x) k = bitStream (byteAt y) k) : x = y :=
  buffer_ext hl fun j hj b hb => by
    have hbit := h (8 * j + (7 - b)) (by omega)
    rwa [bitStream_mul_add _ _ (by omega), bitStream_mul_add _ _ (by omega), Nat.sub_sub_self (by omega)] at hbit

/-- A 7-bit-clean buffer is its 7-bit stream. -/
theorem eq_of_sevenBitStream_eq {x y : List Byte} (hl : x.length = y.length)
    (hx : ∀ j, (byteAt x j).getLsbD 7 = false) (hy : ∀ j, (byteAt y j).getLsbD 7 = false)
    (h : ∀ k < 7 * x.length, sevenBitStream (byteAt x) k = sevenBitStream (byteAt y) k) : x = y :=
  buffer_ext hl fun j hj b hb => by
    obtain hb | rfl : b < 7 ∨ b = 7 := by omega
    · have hbit := h (7 * j + (6 - b)) (by omega)
      rwa [sevenBitStream_mul_add _ _ (by omega), sevenBitStream_mul_add _ _ (by omega), Nat.sub_sub_self (by omega)] at hbit
    · rw [hx, hy]

/-! ## The closed forms -/

/-- The loop from the streams' start on an all-zero buffer that has room for all its bits: the first `k` bits of the input's
stream, then zeros. -/
theorem bitAt_copyBits_zeros (x : List Byte) (r : Nat) {w k m : Nat} (hw : w < 8) (hk : k ≤ (w + 1) * m) (p : Nat) :
    bitAt (copyBits x r w k (0, r) (0, w) (zeros m)) (cursorAt w p) = (decide (p < k) && bitAt x (cursorAt r p)) := by
  have hpos : p / (w + 1) * (w + 1) + (w - (w - p % (w + 1))) = p := by
    have hmod : p % (w + 1) < w + 1 := Nat.mod_lt p (Nat.succ_pos w)
    rw [Nat.sub_sub_self (by omega), Nat.div_add_mod']
  by_cases hj : p / (w + 1) < m
  · have hbit := copyBits_bit x r w hw k 0 (zeros m) (p / (w + 1)) (w - p % (w + 1)) (by rwa [length_zeros])
    rw [hpos, byteAt_zeros, cursorAt_zero, cursorAt_zero] at hbit
    refine hbit.trans ?_
    by_cases hp : p < k <;> simp [hp]
  · have hp : ¬ p < k := fun h => hj (Nat.div_lt_of_lt_mul (by omega))
    have hend : byteAt (copyBits x r w k (0, r) (0, w) (zeros m)) (p / (w + 1)) = 0#8 :=
      byteAt_of_le (by rw [length_copyBits, length_zeros]; omega)
    rw [decide_eq_false hp, Bool.false_and]
    exact (congrArg (BitVec.getLsbD · _) hend).trans BitVec.getLsbD_zero

/-- R135: the 7-bit stream of PACK's result is the input's bit stream, then zeros. -/
theorem sevenBitStream_pack (x : List Byte) (k : Nat) :
    sevenBitStream (byteAt (pack x)) k = (decide (k < 8 * x.length) && bitStream (byteAt x) k) :=
  bitAt_copyBits_zeros x 7 (by decide) (eight_mul_le_packLen _) k

/-- R138: the bit stream of UNPACK's result is the input's 7-bit stream without the trailing bits. -/
theorem bitStream_unpack (x : List Byte) (k : Nat) :
    bitStream (byteAt (unpack x)) k = (decide (k < 8 * unpackLen x.length) && sevenBitStream (byteAt x) k) :=
  bitAt_copyBits_zeros x 6 (by decide) le_rfl k

/-- The write cursor of PACK never stands at bit 7. -/
theorem getLsbD_seven_pack (x : List Byte) (j : Nat) : (byteAt (pack x) j).getLsbD 7 = false := by
  by_cases hj : j < (zeros (packLen x.length)).length
  · have hbit := copyBits_bit x 7 6 (by decide) (8 * x.length) 0 (zeros (packLen x.length)) j 7 hj
    rw [if_neg (by omega), byteAt_zeros, cursorAt_zero, cursorAt_zero] at hbit
    exact hbit
  · rw [byteAt_of_le (by rwa [length_pack, ← length_zeros (packLen _), ← not_lt])]
    rfl

/-! ## 7-bit-clean bytes -/

theorem toNat_le_127_iff (v : Byte) : v.toNat ≤ 127 ↔ v.getLsbD 7 = false := by
  have h := BitVec.msb_eq_false_iff_two_mul_lt (x := v)
  rw [BitVec.msb_eq_getLsbD_last] at h
  rw [h]
  omega

theorem and_80_eq_zero_iff (v : Byte) : v &&& 0x80#8 = 0#8 ↔ v.getLsbD 7 = false := by
  have h : v &&& 0x80#8 = if v.getLsbD 7 then 0x80#8 else 0#8 := BitVec.and_twoPow v 7
  rw [h]
  cases v.getLsbD 7 <;> decide

/-- Reading past the end gives 0, so what holds of 0 and of every byte of a buffer holds at every index. -/
theorem forall_mem_iff_byteAt {P : Byte → Prop} (h0 : P 0#8) (x : List Byte) : (∀ v ∈ x, P v) ↔ ∀ j, P (byteAt x j) := by
  rw [List.forall_mem_iff_getElem]
  constructor
  · intro h j
    obtain hj | hj := lt_or_ge j x.length
    · rw [byteAt_of_lt hj]
      exact h j hj
    · rwa [byteAt_of_le hj]
  · exact fun h j hj => byteAt_of_lt hj ▸ h j

theorem forall_toNat_le_127_iff (x : List Byte) :
    (∀ v ∈ x, v.toNat ≤ 127) ↔ ∀ j, (byteAt x j).getLsbD 7 = false := by
  rw [forall_mem_iff_byteAt (P := fun v => v.toNat ≤ 127) (by decide)]
  exact forall_congr' fun j => toNat_le_127_iff _

/-- Settles O34: the bits past the input's 8n in the closed form of R135 are zeros. -/
theorem packOutputIsSevenBitClean : Obligations.PackOutputIsSevenBitClean := by
  intro x
  refine ⟨?_, eight_mul_le_packLen _, padding_le_six _, fun k hk _ => ?_⟩
  · exact (forall_mem_iff_byteAt (by decide) _).mpr fun j =>
      ⟨(toNat_le_127_iff _).mpr (getLsbD_seven_pack x j), (and_80_eq_zero_iff _).mpr (getLsbD_seven_pack x j)⟩
  · rw [sevenBitStream_pack, decide_eq_false (by omega), Bool.false_and]

/-! ## What UNPACK depends on -/

/-- UNPACK's result depends on the input's length and on its 7-bit stream below the trailing bits. -/
theorem unpack_congr {x x' : List Byte} (hl : x.length = x'.length)
    (h : ∀ k < 8 * unpackLen x.length, sevenBitStream (byteAt x) k = sevenBitStream (byteAt x') k) : unpack x = unpack x' := by
  refine eq_of_bitStream_eq (by rw [length_unpack, length_unpack, hl]) fun k hk => ?_
  rw [length_unpack] at hk
  rw [bitStream_unpack, bitStream_unpack, h k hk, hl]

/-- Settles O37: UNPACK's closed form reads no trailing bit. -/
theorem unpackIgnoresTrailingBits : Obligations.UnpackIgnoresTrailingBits := fun _ _ hl h =>
  ⟨unpack_congr hl h, eight_mul_unpackLen_le _, trailing_le_seven _, trailing_eq_seven_iff _⟩

theorem getLsbD_and_7F (v : Byte) {b : Nat} (hb : b < 7) : (v &&& 0x7F#8).getLsbD b = v.getLsbD b := by
  have hmask : ∀ b : Fin 7, (0x7F#8).getLsbD b = true := by decide
  rw [BitVec.getLsbD_and, hmask ⟨b, hb⟩, Bool.and_true]

/-- The 7-bit stream reads bits 6 to 0 only. -/
theorem sevenBitStream_map_and_7F (x : List Byte) (k : Nat) :
    sevenBitStream (byteAt (x.map fun v => v &&& 0x7F#8)) k = sevenBitStream (byteAt x) k := by
  have hbyte : byteAt (x.map fun v => v &&& 0x7F#8) (k / 7) = byteAt x (k / 7) &&& 0x7F#8 :=
    List.getD_map x 0#8 fun v => v &&& 0x7F#8
  rw [sevenBitStream, hbyte, getLsbD_and_7F _ (by omega)]
  rfl

/-- Settles O36: buffers that agree below bit 7 have one 7-bit stream. -/
theorem unpackIgnoresBitSeven : Obligations.UnpackIgnoresBitSeven := by
  intro x x' h
  have hl : x.length = x'.length := by simpa using congrArg List.length h
  refine unpack_congr hl fun k _ => ?_
  rw [← sevenBitStream_map_and_7F x, h, sevenBitStream_map_and_7F]

/-! ## The round trips -/

theorem unpack_pack (x : List Byte) : unpack (pack x) = x := by
  have hl : (unpack (pack x)).length = x.length := by rw [length_unpack, length_pack, unpackLen_packLen]
  refine eq_of_bitStream_eq hl fun k hk => ?_
  rw [hl] at hk
  rw [bitStream_unpack, sevenBitStream_pack, length_pack, unpackLen_packLen, decide_eq_true hk, Bool.true_and, Bool.true_and]

/-- Settles O35: the first 8n bits of the packed buffer's 7-bit stream are the input's bit stream. -/
theorem unpackUndoesPack : Obligations.UnpackUndoesPack :=
  ⟨fun x => ⟨unpack_pack x, congrArg _ (unpack_pack x)⟩, unpackLen_packLen⟩

/-- PACK after UNPACK keeps the 7-bit stream below the trailing bits and clears the trailing bits. -/
theorem sevenBitStream_pack_unpack (y : List Byte) (k : Nat) :
    sevenBitStream (byteAt (pack (unpack y))) k =
      (decide (k < 8 * unpackLen y.length) && sevenBitStream (byteAt y) k) := by
  rw [sevenBitStream_pack, bitStream_unpack, length_unpack, ← Bool.and_assoc, Bool.and_self]

/-- Settles O39: PACK's results are 7-bit clean, have a packed length and zeros where the trailing bits were; a clean buffer
is its 7-bit stream, so nothing else can differ. -/
theorem packUndoesUnpackIff : Obligations.PackUndoesUnpackIff := by
  intro y
  have hlen : (pack (unpack y)).length = packLen (unpackLen y.length) := by rw [length_pack, length_unpack]
  rw [forall_toNat_le_127_iff]
  constructor
  · intro h
    refine ⟨fun j => h ▸ getLsbD_seven_pack _ j, ?_, fun k hk _ => ?_⟩
    · exact (packLen_unpackLen_eq_iff _).mp (hlen ▸ congrArg List.length h)
    · have hbit := sevenBitStream_pack_unpack y k
      rwa [h, decide_eq_false (by omega), Bool.false_and] at hbit
  · rintro ⟨hclean, hmod, htrail⟩
    rw [packLen_unpackLen_of_ne hmod] at hlen
    refine eq_of_sevenBitStream_eq hlen (getLsbD_seven_pack _) hclean fun k hk => ?_
    rw [sevenBitStream_pack_unpack]
    by_cases hin : k < 8 * unpackLen y.length
    · rw [decide_eq_true hin, Bool.true_and]
    · rw [decide_eq_false hin, Bool.false_and, htrail k (by omega) (by omega)]

end Sys2Proof.Machine
end

section
/-! What PACK and UNPACK commit (R116) while a command is in flight: the closed forms of R135 and R138 byte by byte. -/

namespace Sys2Proof.Machine

variable {s : State}

theorem exec_of_codecOf_eq_ok (h : Ready s) {i : Instr} {y : List Byte} (hy : codecOf i s.input = .ok y) :
    exec i s = .next (commitOk y s) := by
  obtain ⟨hbusy, -, -⟩ := h
  rw [exec_eq_performWith, performWith_busy hbusy, hy]
  rfl

/-- OUT_LEN can spell the length of a result that fits OUT_BUF. -/
theorem commitOk_outLen_toNat (h : Ready s) {y : List Byte} (hy : y.length ≤ 2 * s.inLen.toNat) :
    (commitOk y s).outLen.toNat = y.length := by
  obtain ⟨-, hfit, hcap⟩ := h
  have hmax := le_of_capacityOk hcap
  rw [commitOk_outLen, BitVec.toNat_ofNat, Nat.mod_eq_of_lt (by omega)]

theorem bitStream_input {k : Nat} (hk : k < 8 * s.inLen.toNat) : bitStream (byteAt s.input) k = bitStream s.inByte k := by
  rw [bitStream, byteAt_input s _ (by omega)]
  rfl

theorem sevenBitStream_input {k : Nat} (hk : k < 7 * s.inLen.toNat) :
    sevenBitStream (byteAt s.input) k = sevenBitStream s.inByte k := by
  rw [sevenBitStream, byteAt_input s _ (by omega)]
  rfl

/-- Settles O23: a result byte holds the seven stream bits from its first position on. -/
theorem packCommitsTheSevenBitSymbols : Obligations.PackCommitsTheSevenBitSymbols := by
  intro s hready
  have hlen : (pack s.input).length = (8 * s.inLen.toNat + 6) / 7 := by rw [length_pack, length_input, packLen]
  have hbyte := fun a => outByte_commitOk (pack s.input) a s
  rw [hlen] at hbyte
  refine ⟨commitOk (pack s.input) s, exec_of_codecOf_eq_ok hready rfl, rfl, ?_, fun j hj => ?_, fun a ha => ?_⟩
  · rw [commitOk_outLen_toNat hready (by omega), hlen]
  · rw [hbyte, if_pos hj]
    refine ⟨getLsbD_seven_pack _ j, fun r hr => ?_⟩
    rw [← sevenBitStream_mul_add _ j hr, sevenBitStream_pack, length_input]
    by_cases hk : 7 * j + r < 8 * s.inLen.toNat
    · rw [bitStream_input hk]
    · rw [decide_eq_false hk, Bool.false_and, Bool.false_and]
  · rw [hbyte, if_neg (by omega)]

/-- Settles O24: every stream bit of a result byte lies in the input's 7m bits. -/
theorem unpackCommitsTheEightBitBytes : Obligations.UnpackCommitsTheEightBitBytes := by
  intro s hready
  have hlen : (unpack s.input).length = 7 * s.inLen.toNat / 8 := by rw [length_unpack, length_input, unpackLen]
  have hbyte := fun a => outByte_commitOk (unpack s.input) a s
  rw [hlen] at hbyte
  refine ⟨commitOk (unpack s.input) s, exec_of_codecOf_eq_ok hready rfl, rfl, ?_, fun i hi q hq => ?_, fun a ha => ?_⟩
  · rw [commitOk_outLen_toNat hready (by omega), hlen]
  · have hin : 8 * i + q < 8 * unpackLen s.inLen.toNat := by unfold unpackLen; omega
    rw [hbyte, if_pos hi, ← bitStream_mul_add _ i hq, bitStream_unpack, length_input, decide_eq_true hin, Bool.true_and,
      sevenBitStream_input (hin.trans_le (eight_mul_unpackLen_le _))]
  · rw [hbyte, if_neg (by omega)]

end Sys2Proof.Machine
end

section
/-! ESCAPE and UNESCAPE in terms of units (R160 to R171): ESCAPE writes one unit for each byte, UNESCAPE gives the bytes that its
input's units stand for, and every input is units up to where the scan ends or fails. The laws R165, R166 and R172 to R175 of the
two functions follow from these. -/

namespace Sys2Proof.Machine

/-! ## The escape table -/

theorem Reserved.exists_iff {p : Reserved → Prop} : (∃ k, p k) ↔ p .cr ∨ p .lf ∨ p .esc := by
  constructor
  · rintro ⟨k, h⟩
    cases k with
    | cr => exact .inl h
    | lf => exact .inr (.inl h)
    | esc => exact .inr (.inr h)
  · rintro (h | h | h) <;> exact ⟨_, h⟩

theorem reservedOf_eq_none_iff (v : Byte) : reservedOf? v = none ↔ v ≠ 0x0D#8 ∧ v ≠ 0x0A#8 ∧ v ≠ 0x7F#8 := by
  revert v
  decide

theorem eq_byte_of_reservedOf {v : Byte} {k : Reserved} : reservedOf? v = some k → v = k.byte := by
  revert v
  cases k <;> decide

theorem reservedOf_eq_some_iff (v : Byte) (k : Reserved) : reservedOf? v = some k ↔ v = k.byte :=
  ⟨eq_byte_of_reservedOf, fun h => h ▸ reservedOf_byte k⟩

theorem codeOf_eq_some_iff (c : Byte) (k : Reserved) : codeOf? c = some k ↔ c = k.code :=
  ⟨eq_code_of_codeOf c k, fun h => h ▸ codeOf_code k⟩

theorem isReserved_iff (v : Byte) : isReserved v = true ↔ v = 0x0D#8 ∨ v = 0x0A#8 ∨ v = 0x7F#8 := by
  simp only [isReserved, Option.isSome_iff_exists, reservedOf_eq_some_iff]
  exact Reserved.exists_iff

theorem isCode_iff (c : Byte) : isCode c = true ↔ c = 0x01#8 ∨ c = 0x02#8 ∨ c = 0x7F#8 := by
  simp only [isCode, Option.isSome_iff_exists, codeOf_eq_some_iff]
  exact Reserved.exists_iff

/-- Settles O40: each direction of the table is the other's inverse, kind by kind. -/
theorem escapeTableIsABijection : Obligations.EscapeTableIsABijection :=
  ⟨isReserved_iff, isCode_iff, reservedOf_eq_some_iff, codeOf_eq_some_iff, rfl, rfl, rfl, rfl, rfl, rfl⟩

/-! ## Units -/

/-- A unit is as many bytes on the wire as it stands for, and one more where it is a pair. -/
theorem length_wireOf (us : List EscUnit) : (wireOf us).length = us.length + us.countP EscUnit.isPair := by
  induction us with
  | nil => rfl
  | cons u us ih =>
    rw [wireOf_cons, List.length_append, ih, List.length_cons]
    cases u with
    | plain v =>
      rw [List.countP_cons_of_neg Bool.false_ne_true, EscUnit.wire, List.length_singleton]
      omega
    | pair k =>
      rw [List.countP_cons_of_pos rfl, EscUnit.wire, List.length_cons, List.length_singleton]
      omega

/-- What ESCAPE writes for one byte: the pair of its kind, or the byte itself. -/
def escUnitOf (v : Byte) : EscUnit := (reservedOf? v).elim (.plain v) .pair

theorem byte_cases (v : Byte) : (∃ k : Reserved, v = k.byte) ∨ reservedOf? v = none := by
  cases h : reservedOf? v with
  | none => exact .inr rfl
  | some k => exact .inl ⟨k, eq_byte_of_reservedOf h⟩

@[simp] theorem escUnitOf_byte (k : Reserved) : escUnitOf k.byte = .pair k := by
  rw [escUnitOf, reservedOf_byte]
  rfl

theorem escUnitOf_of_none {v : Byte} (h : reservedOf? v = none) : escUnitOf v = .plain v := by
  rw [escUnitOf, h]
  rfl

theorem value_escUnitOf (v : Byte) : (escUnitOf v).value = v := by
  obtain ⟨k, rfl⟩ | h := byte_cases v
  · rw [escUnitOf_byte]
    rfl
  · rw [escUnitOf_of_none h]
    rfl

theorem valid_escUnitOf (v : Byte) : (escUnitOf v).valid = true := by
  obtain ⟨k, rfl⟩ | h := byte_cases v
  · rw [escUnitOf_byte]
    rfl
  · obtain ⟨-, -, hesc⟩ := (reservedOf_eq_none_iff v).mp h
    rw [escUnitOf_of_none h]
    exact bne_iff_ne.mpr hesc

theorem isPair_escUnitOf (v : Byte) : (escUnitOf v).isPair = isReserved v := by
  obtain ⟨k, rfl⟩ | h := byte_cases v
  · rw [escUnitOf_byte, isReserved, reservedOf_byte]
    rfl
  · rw [escUnitOf_of_none h, isReserved, h]
    rfl

/-- No pair holds CR or LF, and a byte that ESCAPE leaves plain is not reserved. -/
theorem ne_cr_lf_of_mem_wire_escUnitOf {b v : Byte} (hm : b ∈ (escUnitOf v).wire) : b ≠ 0x0D#8 ∧ b ≠ 0x0A#8 := by
  obtain ⟨k, rfl⟩ | h := byte_cases v
  · rw [escUnitOf_byte] at hm
    revert b
    cases k <;> decide
  · obtain ⟨hcr, hlf, -⟩ := (reservedOf_eq_none_iff v).mp h
    rw [escUnitOf_of_none h] at hm
    obtain rfl := List.mem_singleton.mp hm
    exact ⟨hcr, hlf⟩

/-- A valid unit is what ESCAPE writes for its value, unless it is a raw CR or LF. -/
theorem escUnitOf_value {u : EscUnit} (hv : u.valid = true) (hcr : 0x0D#8 ∉ u.wire) (hlf : 0x0A#8 ∉ u.wire) :
    escUnitOf u.value = u := by
  cases u with
  | plain v =>
    exact escUnitOf_of_none ((reservedOf_eq_none_iff v).mpr
      ⟨fun h => hcr (List.mem_singleton.mpr h.symm), fun h => hlf (List.mem_singleton.mpr h.symm), bne_iff_ne.mp hv⟩)
  | pair k => exact escUnitOf_byte k

theorem map_value_escUnitOf (x : List Byte) : (x.map escUnitOf).map EscUnit.value = x := by
  rw [List.map_map]
  exact List.map_id'' value_escUnitOf x

theorem all_valid_escUnitOf (x : List Byte) : (x.map escUnitOf).all EscUnit.valid = true := by
  rw [List.all_map, List.all_eq_true]
  exact fun v _ => valid_escUnitOf v

theorem countP_isPair_escUnitOf (x : List Byte) : (x.map escUnitOf).countP EscUnit.isPair = reservedCount x := by
  rw [List.countP_map, reservedCount]
  exact List.countP_congr fun v _ => by rw [Function.comp_apply, isPair_escUnitOf]

/-! ## ESCAPE -/

/-- One step of the scan (R164) fills the places after the bytes already written with the unit of the byte read. -/
theorem escapeScan_cons (v : Byte) (rest pre slot tail : List Byte) (hslot : slot.length = (escUnitOf v).wire.length) :
    escapeScan (v :: rest) pre.length (pre ++ (slot ++ tail)) =
      escapeScan rest (pre ++ (escUnitOf v).wire).length (pre ++ (escUnitOf v).wire ++ tail) := by
  obtain ⟨k, rfl⟩ | h := byte_cases v
  · rw [escUnitOf_byte] at hslot ⊢
    obtain ⟨a, b, rfl⟩ := List.length_eq_two.mp hslot
    simp [escapeScan, reservedOf_byte, EscUnit.wire, escMarker]
  · rw [escUnitOf_of_none h] at hslot ⊢
    obtain ⟨a, rfl⟩ := List.length_eq_one_iff.mp hslot
    simp [escapeScan, h, EscUnit.wire]

theorem escapeScan_zeros (x pre : List Byte) :
    escapeScan x pre.length (pre ++ zeros (wireOf (x.map escUnitOf)).length) = pre ++ wireOf (x.map escUnitOf) := by
  induction x generalizing pre with
  | nil => rfl
  | cons v rest ih =>
    rw [List.map_cons, wireOf_cons, List.length_append, zeros, List.replicate_add,
      escapeScan_cons v rest pre _ _ List.length_replicate, ← zeros, ih, List.append_assoc]

/-- R164: the result is the units of the input's bytes, in order. -/
theorem escape_eq_wireOf (x : List Byte) : escape x = wireOf (x.map escUnitOf) := by
  have hlen : (wireOf (x.map escUnitOf)).length = x.length + reservedCount x := by
    rw [length_wireOf, countP_isPair_escUnitOf, List.length_map]
  have h := escapeScan_zeros x []
  rwa [hlen] at h

/-- Settles O41: the result buffer is sized by the counting pass, and at most every byte is reserved. -/
theorem escapeLengthCountsReservedBytes : Obligations.EscapeLengthCountsReservedBytes := fun x =>
  ⟨length_escape x, (length_escape x).symm ▸ Nat.le_add_right _ _, length_escape_le_two_mul x⟩

/-- R166: every byte of the result is in the unit of some byte. -/
theorem ne_cr_lf_of_mem_escape {b : Byte} {x : List Byte} (hm : b ∈ escape x) : b ≠ 0x0D#8 ∧ b ≠ 0x0A#8 := by
  rw [escape_eq_wireOf, wireOf, List.flatMap_map, List.mem_flatMap] at hm
  obtain ⟨v, -, hv⟩ := hm
  exact ne_cr_lf_of_mem_wire_escUnitOf hv

theorem cr_lf_notMem_escape (x : List Byte) : 0x0D#8 ∉ escape x ∧ 0x0A#8 ∉ escape x :=
  ⟨fun h => (ne_cr_lf_of_mem_escape h).1 rfl, fun h => (ne_cr_lf_of_mem_escape h).2 rfl⟩

/-- Settles O42: the result is the units of the input's bytes. -/
theorem escapeOutputHasNoRawReservedByte : Obligations.EscapeOutputHasNoRawReservedByte := fun x =>
  have ⟨hcr, hlf⟩ := cr_lf_notMem_escape x
  ⟨hcr, hlf, x.map escUnitOf, all_valid_escUnitOf x, escape_eq_wireOf x⟩

/-! ## UNESCAPE -/

/-- The scan passes over units, giving their values. -/
theorem unescapeScan_wireOf_append {us : List EscUnit} (hv : us.all EscUnit.valid = true) (rest : List Byte) (i : Nat)
    (y : List Byte) :
    unescapeScan (wireOf us ++ rest) i y = unescapeScan rest (i + (wireOf us).length) (y ++ us.map EscUnit.value) := by
  induction us generalizing i y with
  | nil => exact congrArg (unescapeScan rest i) (List.append_nil y).symm
  | cons u us ih =>
    obtain ⟨hu, hus⟩ := (Bool.and_eq_true _ _).mp hv
    rw [wireOf_cons, List.append_assoc, List.length_append, ← Nat.add_assoc, List.map_cons, List.append_cons]
    cases u with
    | plain v => exact (unescapeScan_plain v (bne_iff_ne.mp hu) _ i y).trans (ih hus ..)
    | pair k => exact (unescapeScan_pair k _ i y).trans (ih hus ..)

/-- R167, R170: what UNESCAPE gives for an input made of units. -/
theorem unescape_wireOf {us : List EscUnit} (hv : us.all EscUnit.valid = true) :
    unescape (wireOf us) = .ok (us.map EscUnit.value) := by
  have h := unescapeScan_wireOf_append hv [] 0 []
  rwa [List.append_nil] at h

/-- Where the scan stops: at the end of the input, or at a marker that opens no pair (R168, R169). -/
def ScanStops (rest : List Byte) : Prop :=
  rest = [] ∨ rest = [escMarker] ∨ ∃ c rest', rest = escMarker :: c :: rest' ∧ codeOf? c = none

/-- An input that is units up to where the scan stops. -/
def HasUnits (x : List Byte) : Prop :=
  ∃ us rest, us.all EscUnit.valid = true ∧ x = wireOf us ++ rest ∧ ScanStops rest

theorem HasUnits.of_scanStops {x : List Byte} (h : ScanStops x) : HasUnits x := ⟨[], x, rfl, rfl, h⟩

theorem HasUnits.cons {u : EscUnit} (hu : u.valid = true) {x : List Byte} (h : HasUnits x) : HasUnits (u.wire ++ x) := by
  obtain ⟨us, rest, hus, rfl, hstop⟩ := h
  refine ⟨u :: us, rest, ?_, ?_, hstop⟩
  · rw [List.all_cons, hu, hus, Bool.and_self]
  · rw [wireOf_cons, List.append_assoc]

/-- R171: the scan stops somewhere, and only there; the recursion is the scan's own. -/
theorem hasUnits : ∀ x : List Byte, HasUnits x
  | [] => .of_scanStops (.inl rfl)
  | [v] => by
    by_cases hv : v = escMarker
    · exact .of_scanStops (.inr (.inl (hv ▸ rfl)))
    · exact (hasUnits []).cons (u := .plain v) (bne_iff_ne.mpr hv)
  | v :: c :: rest => by
    by_cases hv : v = escMarker
    · subst hv
      cases hc : codeOf? c with
      | none => exact .of_scanStops (.inr (.inr ⟨c, rest, rfl, hc⟩))
      | some k =>
        rw [eq_code_of_codeOf c k hc]
        exact (hasUnits rest).cons (u := .pair k) rfl
    · exact (hasUnits (c :: rest)).cons (u := .plain v) (bne_iff_ne.mpr hv)

/-- Settles O29: where the scan of R167 stops, one of the three cases holds. -/
theorem everyInputParsesIntoUnits : Obligations.EveryInputParsesIntoUnits := by
  intro x
  obtain ⟨us, rest, hv, rfl, rfl | rfl | ⟨c, rest', rfl, hc⟩⟩ := hasUnits x
  · exact ⟨us, hv, .inl (List.append_nil _)⟩
  · exact ⟨us, hv, .inr (.inl rfl)⟩
  · exact ⟨us, hv, .inr (.inr ⟨c, rest', rfl, (codeOf_eq_none_iff c).mp hc⟩)⟩

/-- UNESCAPE succeeds on exactly the inputs made of units, with their values. -/
theorem unescape_eq_ok_iff (x y : List Byte) :
    unescape x = .ok y ↔ ∃ us : List EscUnit, us.all EscUnit.valid = true ∧ x = wireOf us ∧ y = us.map EscUnit.value := by
  constructor
  · intro h
    obtain ⟨us, rest, hv, rfl, hstop⟩ := hasUnits x
    rw [unescape, unescapeScan_wireOf_append hv] at h
    obtain rfl | rfl | ⟨c, rest', rfl, hc⟩ := hstop
    · exact ⟨us, hv, List.append_nil _, (CodecResult.ok.inj h).symm⟩
    · rw [unescapeScan_truncated] at h
      nomatch h
    · rw [unescapeScan_unknown c hc] at h
      nomatch h
  · rintro ⟨us, hv, rfl, rfl⟩
    exact unescape_wireOf hv

/-- Settles O44: the result has one byte for each unit, and a unit is one byte or, as a pair, two. -/
theorem unescapeLengthCountsPairs : Obligations.UnescapeLengthCountsPairs := by
  intro x y h
  obtain ⟨us, hv, rfl, rfl⟩ := (unescape_eq_ok_iff x y).mp h
  have hlen := length_wireOf us
  have hpairs : us.countP EscUnit.isPair ≤ us.length := List.countP_le_length
  rw [List.length_map]
  exact ⟨⟨us, hv, rfl, by omega⟩, by omega, by omega⟩

/-! ## The round trips -/

theorem unescape_escape (x : List Byte) : unescape (escape x) = .ok x := by
  rw [escape_eq_wireOf, unescape_wireOf (all_valid_escUnitOf x), map_value_escUnitOf]

/-- Settles O43: ESCAPE writes units, and each stands for the byte it was written for. -/
theorem unescapeUndoesEscape : Obligations.UnescapeUndoesEscape := unescape_escape

theorem wire_subset_wireOf {u : EscUnit} {us : List EscUnit} (hu : u ∈ us) : u.wire ⊆ wireOf us :=
  fun _ hb => List.mem_flatMap.mpr ⟨u, hu, hb⟩

/-- Units without raw CR and LF are what ESCAPE writes for their values. -/
theorem escape_map_value {us : List EscUnit} (hv : us.all EscUnit.valid = true) (hcr : 0x0D#8 ∉ wireOf us)
    (hlf : 0x0A#8 ∉ wireOf us) : escape (us.map EscUnit.value) = wireOf us := by
  have hunit : ∀ u ∈ us, escUnitOf u.value = u := fun u hu =>
    have hsub := wire_subset_wireOf hu
    escUnitOf_value (List.all_eq_true.mp hv u hu) (fun h => hcr (hsub h)) (fun h => hlf (hsub h))
  rw [escape_eq_wireOf, List.map_map]
  exact congrArg wireOf ((List.map_congr_left hunit).trans (List.map_id' us))

/-- Settles O45: ESCAPE gives no raw CR or LF, and writes every other unit back as it was. -/
theorem escapeUndoesUnescapeIff : Obligations.EscapeUndoesUnescapeIff := by
  refine ⟨fun x y h => ⟨?_, ?_⟩, by decide, by decide⟩
  · rintro rfl
    exact cr_lf_notMem_escape y
  · rintro ⟨hcr, hlf⟩
    obtain ⟨us, hv, rfl, rfl⟩ := (unescape_eq_ok_iff x y).mp h
    exact escape_map_value hv hcr hlf

/-- Settles O46: the two round trips, one inside the other. -/
theorem transportFormRoundTrips : Obligations.TransportFormRoundTrips := fun x =>
  ⟨pack x, unescape_escape (pack x), rfl, unpack_pack x⟩

end Sys2Proof.Machine
end

section
/-! What ESCAPE and UNESCAPE commit (R116) while a command is in flight. -/

namespace Sys2Proof.Machine

variable {s : State}

theorem length_le_of_codecOf_eq_ok {i : Instr} {x y : List Byte} (h : codecOf i x = .ok y) : y.length ≤ 2 * x.length := by
  obtain ⟨z, hz, hle⟩ | ⟨-, p, hp, -⟩ | ⟨-, p, c, hp, -⟩ := codecOf_cases i x
  · obtain rfl := CodecResult.ok.inj (h.symm.trans hz)
    exact hle
  · nomatch h.symm.trans hp
  · nomatch h.symm.trans hp

/-- R116 whole: a command whose codec succeeds ends DONE with the result in OUT_BUF and its length in OUT_LEN; OUT_BUF past it
and every other field stay. -/
theorem exec_commits_of_codecOf_eq_ok (h : Ready s) {i : Instr} {y : List Byte} (hy : codecOf i s.input = .ok y) :
    ∃ t, exec i s = .next t ∧ t = { s with state := .done, outBuf := t.outBuf, outLen := t.outLen } ∧
      t.output = y ∧ t.outLen.toNat = y.length ∧ ∀ a, y.length ≤ a → t.outByte a = s.outByte a := by
  have hlen : y.length ≤ 2 * s.inLen.toNat := length_input s ▸ length_le_of_codecOf_eq_ok hy
  have hout := commitOk_outLen_toNat h hlen
  refine ⟨commitOk y s, exec_of_codecOf_eq_ok h hy, rfl, output_commitOk y s ?_, hout, fun a ha => ?_⟩
  · exact hout ▸ BitVec.isLt _
  · rw [outByte_commitOk, if_neg (by omega)]

/-- R161, R164: the unit of a byte, written out. -/
theorem wire_escUnitOf (v : Byte) :
    (escUnitOf v).wire =
      if v = 0x0D#8 then [0x7F#8, 0x01#8] else if v = 0x0A#8 then [0x7F#8, 0x02#8]
      else if v = 0x7F#8 then [0x7F#8, 0x7F#8] else [v] := by
  obtain ⟨k, rfl⟩ | h := byte_cases v
  · rw [escUnitOf_byte]
    cases k <;> rfl
  · obtain ⟨hcr, hlf, hesc⟩ := (reservedOf_eq_none_iff v).mp h
    rw [escUnitOf_of_none h, if_neg hcr, if_neg hlf, if_neg hesc]
    rfl

/-- Settles O25: the result is the units of the input's bytes, and a pair is one byte longer than the byte it replaces. -/
theorem escapeCommitsTheSubstitution : Obligations.EscapeCommitsTheSubstitution := by
  intro s hready
  obtain ⟨t, hexec, hframe, hout, hlen, hpast⟩ := exec_commits_of_codecOf_eq_ok hready (i := .escape) rfl
  refine ⟨t, hexec, hframe, ?_, ?_, fun a ha => hpast a (hlen ▸ ha)⟩
  · rw [hout, escape_eq_wireOf, wireOf, List.flatMap_map]
    exact List.flatMap_congr fun v _ => wire_escUnitOf v
  · rw [hlen, length_escape, length_input]
    rfl

/-- Settles O26: the scan of R167 gives the values of the input's units. -/
theorem unescapeCommitsTheUnitsValues : Obligations.UnescapeCommitsTheUnitsValues := by
  intro s us hready hv hinput
  have hok : codecOf .unescape s.input = .ok (us.map EscUnit.value) := hinput ▸ unescape_wireOf hv
  have hcommits := exec_commits_of_codecOf_eq_ok hready hok
  rwa [List.length_map] at hcommits

end Sys2Proof.Machine
end

section
/-! The errors a command can leave (60_exceptions.md R201, R202), and how the next command leaves ERROR (R208). -/

namespace Sys2Proof.Machine

/-! ## The two errors of UNESCAPE -/

/-- R168: units up to a marker that is the last byte. -/
theorem unescape_wireOf_truncated {us : List EscUnit} (hv : us.all EscUnit.valid = true) :
    unescape (wireOf us ++ [escMarker]) = .err .truncatedEscape (wireOf us).length 0x00#8 := by
  rw [unescape, unescapeScan_wireOf_append hv, unescapeScan_truncated, Nat.zero_add]

/-- R169, R171: units up to a marker before a byte that is no code; what comes after is not read. -/
theorem unescape_wireOf_unknown {us : List EscUnit} (hv : us.all EscUnit.valid = true) {c : Byte} (hc : codeOf? c = none)
    (rest : List Byte) :
    unescape (wireOf us ++ escMarker :: c :: rest) = .err .unknownEscapeCode (wireOf us).length c := by
  rw [unescape, unescapeScan_wireOf_append hv, unescapeScan_unknown c hc, Nat.zero_add]

/-- R117 whole: a command whose codec fails ends in ERROR with the codec's record and OUT_LEN 0; OUT_BUF from the recorded
position on stays, and so does every other field but the count of draws. -/
theorem exec_records_of_codecOf_eq_err {s : State} (hb : s.state = .busy) {i : Instr} {e : ErrCode} {p : Nat} {d : Byte}
    (herr : codecOf i s.input = .err e p d) :
    ∃ t, exec i s = .next t ∧
      t = { s with state := .error, err := e, errPos := BitVec.ofNat 32 p, errData := d, outLen := 0#32,
                   outBuf := t.outBuf, draws := t.draws } ∧
      ∀ a, p ≤ a → t.outByte a = s.outByte a := by
  have hexec : exec i s = .next (commitErr e p d s) := by
    rw [exec_eq_performWith, performWith_busy hb, herr]
    rfl
  exact ⟨commitErr e p d s, hexec, rfl, fun a ha => outByte_commitErr_of_le ha e d s⟩

/-- Settles O27: the units end where the last byte stands, so the recorded position is IN_LEN - 1. -/
theorem unescapeReportsTruncatedEscape : Obligations.UnescapeReportsTruncatedEscape := by
  rintro s us ⟨hb, -, -⟩ hv hinput
  have herr : codecOf .unescape s.input = .err .truncatedEscape (wireOf us).length 0x00#8 :=
    hinput ▸ unescape_wireOf_truncated hv
  have hlen : s.inLen.toNat = (wireOf us).length + 1 := by
    rw [← length_input, hinput, List.length_append, List.length_singleton]
  have hlast : (wireOf us).length = s.inLen.toNat - 1 := (Nat.sub_eq_of_eq_add hlen).symm
  have hpos : BitVec.ofNat 32 (s.inLen.toNat - 1) = s.inLen - 1#32 := by bv_omega
  have hrecord := exec_records_of_codecOf_eq_err hb herr
  rwa [hlast, hpos] at hrecord

/-- Settles O28: the scan passes the units and stops at the first marker without a code. -/
theorem unescapeReportsUnknownEscapeCode : Obligations.UnescapeReportsUnknownEscapeCode := by
  rintro s us c rest ⟨hb, -, -⟩ hv hinput hcr hlf hesc
  have hc : codeOf? c = none := (codeOf_eq_none_iff c).mpr ⟨hcr, hlf, hesc⟩
  exact exec_records_of_codecOf_eq_err hb (i := .unescape) (hinput ▸ unescape_wireOf_unknown hv hc rest)

/-! ## Leaving ERROR -/

/-- Settles O12: each of the three ends of an issue (R103) has a clear record, with an error of the issue or none. -/
theorem nextCommandLeavesError : Obligations.NextCommandLeavesError := by
  intro s w herror
  have hb : s.state ≠ .busy := by rw [herror]; decide
  refine ⟨_, (occur_host _ s).trans (congrArg _ (transact_regw_cmd_of_not_busy hb w)), ?_⟩
  obtain ⟨-, hissue⟩ | ⟨_, -, -, hissue⟩ | ⟨_, -, -, hissue⟩ := issue_cases w s <;> rw [hissue]
  · exact ⟨rfl, rfl, rfl, .inr ⟨rfl, .inl rfl⟩⟩
  · exact ⟨rfl, rfl, rfl, .inr ⟨rfl, .inr rfl⟩⟩
  · exact ⟨rfl, rfl, rfl, .inl ⟨rfl, rfl⟩⟩

end Sys2Proof.Machine
end

section
/-! What the two kinds of reset leave behind (R230 to R233): the registers at their reset values, and of OUT_BUF every byte
that an aborted command could not have written. -/

namespace Sys2Proof.Machine

/-! ## RESET of a powered block -/

/-- R230 and R232 whole: RESET sets the registers and, of the rest, writes only OP_L, OUT_BUF and the count of draws. -/
theorem resetBlock_frame (s : State) :
    resetBlock s = { s with
      state := .idle, drop := false, err := .none, errData := 0x00#8, inLen := 0#32, outLen := 0#32, errPos := 0#32,
      opL := (resetBlock s).opL, outBuf := (resetBlock s).outBuf, draws := (resetBlock s).draws } := by
  by_cases hb : s.state = .busy
  · rw [resetBlock_of_busy hb]
    rfl
  · rw [resetBlock_of_not_busy hb]
    rfl

theorem resetBlock_outBuf_of_not_busy {s : State} (hb : s.state ≠ .busy) : (resetBlock s).outBuf = s.outBuf := by
  rw [resetBlock_of_not_busy hb, resetRegisters_outBuf]

/-- R232: from the bound of the command in flight on, RESET keeps OUT_BUF, at every STATE. -/
theorem outByte_resetBlock_of_le {s : State} {a : Nat} (ha : min (2 * s.inLen.toNat) (2 * s.inCap) ≤ a) :
    (resetBlock s).outByte a = s.outByte a := by
  by_contra hne
  obtain ⟨-, hlen, hcap⟩ := busy_of_outByte_resetBlock_ne hne
  exact absurd (lt_min hlen hcap) (Nat.not_lt_of_le ha)

/-- Settles O50: RESET is `resetBlock` with an empty response, so its frame and what it keeps of OUT_BUF carry over. -/
theorem resetSetsRegistersAndKeepsBuffers : Obligations.ResetSetsRegistersAndKeepsBuffers := by
  intro s
  refine ⟨{ resetBlock s with resp := .none }, occur_host .reset s, ?_, resetBlock_outBuf_of_not_busy,
    fun a ha => outByte_resetBlock_of_le ha⟩
  rw [resetBlock_frame]

/-! ## The reset state and power-on -/

/-- Settles O49: STATUS is read through the registers it packs (R108), all of them 0. -/
theorem resetStateRegistersReadZero : Obligations.ResetStateRegistersReadZero := by
  have hstatus : readReg .status State.reset = 0x00000000#32 := by decide
  exact ⟨rfl, rfl, rfl, rfl, rfl, rfl, rfl, hstatus, rfl⟩

/-- Power-on takes its effect at once and leaves the coming events (R231). -/
theorem occur_powerOn (s : State) : occur .powerOn s = .next (powerOn s) := rfl

/-- Settles O51: power-on writes the registers by `resetRegisters`, and over that only the buffers, the power-on number and
the response. -/
theorem powerOnSetsRegisters : Obligations.PowerOnSetsRegisters := fun s =>
  ⟨powerOn s, occur_powerOn s, resetRegisters_state s, resetRegisters_drop s, resetRegisters_err s,
    resetRegisters_errData s, resetRegisters_inLen s, resetRegisters_outLen s, resetRegisters_errPos s,
    resetRegisters_inCap s, resetRegisters_events s⟩

end Sys2Proof.Machine
end
